-- ==== Sys2Proof/Word.lean ====
section
/-! DEFINITION. The word types of the machine (00_scope.md R5, R9). -/

namespace Sys2Proof

/-- A Word: "an unsigned 16-bit integer"; its `+` and `-` wrap modulo 2^16 (00 R9). -/
abbrev Word := BitVec 16

/-- The width in which the list that holds memory keeps its cells (log entry 1); the machine itself has no byte access. -/
abbrev Byte := BitVec 8

/-- A memory index 0..8191, "13-bit": what an address is after the reduction modulo 8192 (00 R5, 20 R50). -/
abbrev Addr := BitVec 13

end Sys2Proof
end

