-- ==== Sys2Proof/Config.lean ====
section
/-! DEFINITION. The parameters the spec leaves to the implementation (00_scope.md R6, R7; 92_eei_decisions.md D5, D8):
`haltCompare` and `cacheCfg` are constants with no body, so that no proof can see which value they have. -/

namespace Sys2Proof

/-- The two readings of "target equals current pc" in the halt test (00 R7; 41 R122; 92 D5). -/
inductive HaltCompare where
  | full16
  | low13
  deriving DecidableEq, Repr, Inhabited

/-- One level's configuration triple, in memory Words (00 R6; 92 D9). -/
structure Geometry where
  size : Nat
  assoc : Nat
  blocksize : Nat
  deriving DecidableEq, Repr, Inhabited

/-- The row count formula `size div (assoc * blocksize)` (10 R32; 90 C1). -/
def Geometry.rows (g : Geometry) : Nat := g.size / (g.assoc * g.blocksize)

/-- When a level triple is valid (10 R31). -/
def Geometry.valid (g : Geometry) : Bool :=
  decide (1 ≤ g.assoc) && decide (1 ≤ g.blocksize) &&
    decide (g.size % (g.assoc * g.blocksize) = 0) && decide (1 ≤ g.rows)

/-- `cacheCfg`: no cache, or one or two level triples, L1 first (00 R6). -/
inductive CacheCfg where
  | none
  | oneLevel (l1 : Geometry)
  | twoLevels (l1 l2 : Geometry)
  deriving DecidableEq, Repr, Inhabited

/-- When a cache configuration may be launched (10 R31). -/
def CacheCfg.valid : CacheCfg → Bool
  | .none => true
  | .oneLevel l1 => l1.valid
  | .twoLevels l1 l2 => l1.valid && l2.valid

/-- Which reading of the halt test this implementation has: open (92 D5; log entry 2). -/
opaque Config.haltCompare : HaltCompare

/-- The cache configuration of this implementation: open (00 R6; log entry 5). -/
opaque Config.cacheCfg : CacheCfg

/-- The configuration that reset builds: the implementation's if it is valid, and no cache otherwise, since a model
"takes only a valid configuration" (10 R31; log entry 5). -/
def Config.launchCfg : CacheCfg := if Config.cacheCfg.valid then Config.cacheCfg else .none

end Sys2Proof
end

