-- ==== Sys2Proof/Machine/Flags.lean ====
section
/-! DEFINITION. The machine has no status flags (10_state.md R26). This file holds the comparisons that take their place:
the unsigned compare of slt and slti, the equality of jeq, and the halt test of j. -/

namespace Sys2Proof.Machine

/-- 1 if `a < b` as unsigned 16-bit values, else 0 (40 R100, row LTU; 00 R9). -/
def ltuWord (a b : Word) : Word := if a.toNat < b.toNat then 1 else 0

/-- The compare of jeq, on all 16 bits (41 R124). -/
def wordsEqual (a b : Word) : Bool := decide (a = b)

/-- The halt test of j. `full16` compares the zero-extended target with the whole pc, `low13` the target with
`pc mod 8192`; written so that the parameter is looked at only where the two readings differ (41 R122). -/
def haltTest (hc : HaltCompare) (imm13 : Addr) (pc : Word) : Bool :=
  if imm13.setWidth 16 = pc then true
  else if imm13 = pc.setWidth 13 then decide (hc = .low13)
  else false

end Sys2Proof.Machine
end

