-- ==== Sys2Proof/Syntax.lean ====
section
/-! DEFINITION. The instructions: one constructor per row of opcode_table.json (30_encoding.md R88, R89). -/

namespace Sys2Proof

/-- A register number 0..7 (10 R20). -/
abbrev RegNo := Fin 8

/-- The decoded instructions, operands in the order of 30 R88. An immediate is carried as the Word the decoder
makes of it (`sext_16(imm7)`, for slti `zext_16(imm7)`); a jump target as its 13 bits. The bits an instruction
ignores (30 R90) are not carried. -/
inductive Instr where
  | add (rd rs rt : RegNo)
  | sub (rd rs rt : RegNo)
  | or (rd rs rt : RegNo)
  | and (rd rs rt : RegNo)
  | slt (rd rs rt : RegNo)
  | jr (rs : RegNo)
  | nopFunct5
  | nopFunct6
  | nopFunct7
  | nopFunct9
  | nopFunct10
  | nopFunct11
  | nopFunct12
  | nopFunct13
  | nopFunct14
  | nopFunct15
  | addi (rt rs : RegNo) (imm : Word)
  | j (imm13 : Addr)
  | jal (imm13 : Addr)
  | lw (rt rs : RegNo) (imm : Word)
  | sw (rt rs : RegNo) (imm : Word)
  | jeq (rs rt : RegNo) (imm : Word)
  | slti (rt rs : RegNo) (imm : Word)
  deriving DecidableEq, Repr

end Sys2Proof
end

