-- ==== Sys2Proof/WellFormed.lean ====
section
/-! DEFINITION. Which terms of `Instr` an instruction word can encode (30_encoding.md R95): register numbers and jump
targets are in range by their types, the immediates are checked here. -/

namespace Sys2Proof

/-- The immediates of addi, lw, sw and jeq: -64..63 as Words (30 R85, R95). -/
def signedImmOk (imm : Word) : Bool := decide (imm.toNat < 64 ∨ 0xFFC0 ≤ imm.toNat)

/-- The immediates of slti: 0..127 (30 R86, R95). -/
def unsignedImmOk (imm : Word) : Bool := decide (imm.toNat < 128)

/-- The operands of `i` are ones its word can hold (30 R95). -/
def Instr.wellFormed : Instr → Bool
  | .add _ _ _ => true
  | .sub _ _ _ => true
  | .or _ _ _ => true
  | .and _ _ _ => true
  | .slt _ _ _ => true
  | .jr _ => true
  | .nopFunct5 => true
  | .nopFunct6 => true
  | .nopFunct7 => true
  | .nopFunct9 => true
  | .nopFunct10 => true
  | .nopFunct11 => true
  | .nopFunct12 => true
  | .nopFunct13 => true
  | .nopFunct14 => true
  | .nopFunct15 => true
  | .addi _ _ imm => signedImmOk imm
  | .j _ => true
  | .jal _ => true
  | .lw _ _ imm => signedImmOk imm
  | .sw _ _ imm => signedImmOk imm
  | .jeq _ _ imm => signedImmOk imm
  | .slti _ _ imm => unsignedImmOk imm

end Sys2Proof
end

