-- ==== Sys2Proof/Decode.lean ====
section
/-! DEFINITION. The instruction decoder, total on every Word (30_encoding.md R80 to R91), and the encoder. -/

namespace Sys2Proof

/-- `sext_16(v7)`: bit 6 copied into bits 7 to 15 (00 R10; 30 R85). -/
def sext16 (v : BitVec 7) : Word := v.signExtend 16

/-- `zext_16(v7)` (00 R10; 30 R86). -/
def zext16 (v : BitVec 7) : Word := v.setWidth 16

/-- `op` = bits[15:13] (30 R81). -/
def opField (w : Word) : Fin 8 := (w.extractLsb' 13 3).toFin

/-- `rs` = bits[12:10] (30 R81). -/
def rsField (w : Word) : RegNo := (w.extractLsb' 10 3).toFin

/-- `rt` = bits[9:7] (30 R81). -/
def rtField (w : Word) : RegNo := (w.extractLsb' 7 3).toFin

/-- `rd` = bits[6:4] (30 R81). -/
def rdField (w : Word) : RegNo := (w.extractLsb' 4 3).toFin

/-- `funct` = bits[3:0] (30 R81). -/
def functField (w : Word) : Nat := (w.extractLsb' 0 4).toNat

/-- `imm7` = bits[6:0] (30 R81). -/
def imm7Field (w : Word) : BitVec 7 := w.extractLsb' 0 7

/-- `imm13` = bits[12:0] (30 R81). -/
def imm13Field (w : Word) : Addr := w.extractLsb' 0 13

/-- The instruction of format R that `funct` selects under `op = 0`; the codes the source does not list are the
reserved no-ops (30 R88, R90; 40 R108). Of four bits' values only 15 is left for the last arm. -/
def decodeFunct (w : Word) : Instr :=
  match functField w with
  | 0 => .add (rdField w) (rsField w) (rtField w)
  | 1 => .sub (rdField w) (rsField w) (rtField w)
  | 2 => .or (rdField w) (rsField w) (rtField w)
  | 3 => .and (rdField w) (rsField w) (rtField w)
  | 4 => .slt (rdField w) (rsField w) (rtField w)
  | 5 => .nopFunct5
  | 6 => .nopFunct6
  | 7 => .nopFunct7
  | 8 => .jr (rsField w)
  | 9 => .nopFunct9
  | 10 => .nopFunct10
  | 11 => .nopFunct11
  | 12 => .nopFunct12
  | 13 => .nopFunct13
  | 14 => .nopFunct14
  | _ => .nopFunct15

/-- The decoder: a total function of one Word; no encoding is illegal (30 R88, R90). -/
def decode (w : Word) : Instr :=
  match opField w with
  | 0 => decodeFunct w
  | 1 => .addi (rtField w) (rsField w) (sext16 (imm7Field w))
  | 2 => .j (imm13Field w)
  | 3 => .jal (imm13Field w)
  | 4 => .lw (rtField w) (rsField w) (sext16 (imm7Field w))
  | 5 => .sw (rtField w) (rsField w) (sext16 (imm7Field w))
  | 6 => .jeq (rsField w) (rtField w) (sext16 (imm7Field w))
  | 7 => .slti (rtField w) (rsField w) (zext16 (imm7Field w))

/-- The decoder on an instruction given as a number of `nbits` bits; the bits above are zero, and this machine has no
instruction longer than one Word (30 R80). -/
def decodeTableWord (nbits w : Nat) : Option Instr :=
  if nbits ≤ 16 then some (decode (BitVec.ofNat 16 (w % 2 ^ nbits))) else none

/-- A field's bits placed with their lowest at bit `lo` of a Word. -/
def placeField {n : Nat} (v : BitVec n) (lo : Nat) : Word := v.setWidth 16 <<< lo

/-- Format R (30 R82). -/
def encodeR (rs rt rd : RegNo) (funct : BitVec 4) : Word :=
  placeField (BitVec.ofFin (w := 3) rs) 10 ||| placeField (BitVec.ofFin (w := 3) rt) 7 |||
    placeField (BitVec.ofFin (w := 3) rd) 4 ||| placeField funct 0

/-- Format I; the immediate's low seven bits are stored (30 R83). -/
def encodeI (op : BitVec 3) (rs rt : RegNo) (imm : Word) : Word :=
  placeField op 13 ||| placeField (BitVec.ofFin (w := 3) rs) 10 ||| placeField (BitVec.ofFin (w := 3) rt) 7 |||
    placeField (imm.setWidth 7) 0

/-- Format J (30 R84). -/
def encodeJ (op : BitVec 3) (imm13 : Addr) : Word := placeField op 13 ||| placeField imm13 0

/-- The word of an instruction, with 0 in the bits the instruction ignores (30 R82 to R84, R89). -/
def encode : Instr → Word
  | .add rd rs rt => encodeR rs rt rd 0
  | .sub rd rs rt => encodeR rs rt rd 1
  | .or rd rs rt => encodeR rs rt rd 2
  | .and rd rs rt => encodeR rs rt rd 3
  | .slt rd rs rt => encodeR rs rt rd 4
  | .jr rs => encodeR rs 0 0 8
  | .nopFunct5 => encodeR 0 0 0 5
  | .nopFunct6 => encodeR 0 0 0 6
  | .nopFunct7 => encodeR 0 0 0 7
  | .nopFunct9 => encodeR 0 0 0 9
  | .nopFunct10 => encodeR 0 0 0 10
  | .nopFunct11 => encodeR 0 0 0 11
  | .nopFunct12 => encodeR 0 0 0 12
  | .nopFunct13 => encodeR 0 0 0 13
  | .nopFunct14 => encodeR 0 0 0 14
  | .nopFunct15 => encodeR 0 0 0 15
  | .addi rt rs imm => encodeI 1 rs rt imm
  | .j imm13 => encodeJ 2 imm13
  | .jal imm13 => encodeJ 3 imm13
  | .lw rt rs imm => encodeI 4 rs rt imm
  | .sw rt rs imm => encodeI 5 rs rt imm
  | .jeq rs rt imm => encodeI 6 rs rt imm
  | .slti rt rs imm => encodeI 7 rs rt imm

end Sys2Proof
end

