-- ==== Sys2Proof/Machine/Cache.lean ====
section
/-! DEFINITION. The cache hierarchy's data, the address decomposer and the cache controller, as pure functions
(10_state.md R30 to R34, R37; 20_memory.md R59 to R70). -/

namespace Sys2Proof.Machine

/-- The name of a level (10 R30). -/
inductive LevelName where
  | L1
  | L2
  deriving DecidableEq, Repr

/-- The outcome of one level's visit (10 R34; 90 C4). -/
inductive CacheOutcome where
  | hit
  | miss
  | store
  deriving DecidableEq, Repr

/-- One cache event (10 R34). `pc` is the whole 16-bit address of the lw or sw (92 D10). -/
structure CacheEvent where
  level : LevelName
  outcome : CacheOutcome
  pc : Word
  address : Addr
  rowIndex : Nat
  deriving DecidableEq, Repr

/-- A block is empty or holds a tag; it holds no data (10 R30; 92 D4). -/
inductive Block where
  | empty
  | valid (tag : Nat)
  deriving DecidableEq, Repr

/-- A row: its blocks from least recently used (position 0) to most recently used (10 R30). -/
abbrev Row := List Block

/-- One cache level (10 R30, R32). -/
structure Level where
  name : LevelName
  assoc : Nat
  blocksize : Nat
  rows : Nat
  sets : List Row
  deriving DecidableEq, Repr

/-- A level as reset builds it: every block empty (10 R32, R38; 70 R170). -/
def levelBuild (name : LevelName) (g : Geometry) : Level where
  name := name
  assoc := g.assoc
  blocksize := g.blocksize
  rows := g.rows
  sets := List.replicate g.rows (List.replicate g.assoc .empty)

/-- The hierarchy as reset builds it; the empty list when no cache is configured (70 R170; 92 D13). -/
def cacheBuild : CacheCfg → List Level
  | .none => []
  | .oneLevel g1 => [levelBuild .L1 g1]
  | .twoLevels g1 g2 => [levelBuild .L1 g1, levelBuild .L2 g2]

/-- The address decomposer: (rowIndex, tag) of an address in one level's geometry (20 R59). -/
def decompose (address : Addr) (blocksize rows : Nat) : Nat × Nat :=
  let blockId := address.toNat / blocksize
  (blockId % rows, blockId / rows)

/-- The outcome of a visit (20 R63). -/
def visitOutcome (isStore found : Bool) : CacheOutcome :=
  if isStore then .store else if found then .hit else .miss

/-- The lookup: some position holds the tag; an empty block never matches (20 R62). -/
def rowFound (row : Row) (tag : Nat) : Bool := decide (Block.valid tag ∈ row)

/-- The LRU update: the first block holding the tag if there is one, else the front block, is removed, and the tag is
appended at the most recently used end (20 R64). -/
def rowUpdate (row : Row) (tag : Nat) : Row :=
  (if rowFound row tag then row.erase (.valid tag) else row.drop 1) ++ [.valid tag]

/-- What one visit of a level gives. -/
structure Visit where
  level : Level
  event : CacheEvent
  found : Bool
  deriving DecidableEq, Repr

/-- One visit of a level: lookup, one event, row update (20 R62 to R64, R66). -/
def levelVisit (l : Level) (address : Addr) (pc : Word) (isStore : Bool) : Visit :=
  let row := (decompose address l.blocksize l.rows).1
  let tag := (decompose address l.blocksize l.rows).2
  let found := rowFound (l.sets.getD row []) tag
  { level := { l with sets := l.sets.set row (rowUpdate (l.sets.getD row []) tag) }
    event := ⟨l.name, visitOutcome isStore found, pc, address, row⟩
    found := found }

/-- The cache controller operation: L1 is visited, then L2 iff the hierarchy has two levels and the access is a store
or missed in L1; with no cache nothing happens (20 R65 to R67). -/
def cacheAccess (cache : List Level) (address : Addr) (pc : Word) (isStore : Bool) :
    List Level × List CacheEvent :=
  match cache with
  | [] => ([], [])
  | l1 :: rest =>
    let v1 := levelVisit l1 address pc isStore
    match rest with
    | [l2] =>
      if isStore || !v1.found then
        let v2 := levelVisit l2 address pc isStore
        ([v1.level, v2.level], [v1.event, v2.event])
      else ([v1.level, l2], [v1.event])
    | _ => (v1.level :: rest, [v1.event])

end Sys2Proof.Machine
end

