-- ==== Sys2Proof/Machine/Memory.lean ====
section
/-! DEFINITION. The 8192-Word memory as data (10_state.md R29; 20_memory.md R45). It is kept as a list of (key, byte)
cells, keys strictly rising and no cell zero; the Word of index `a` is the two cells of keys `2a` (low byte) and
`2a + 1` (high byte). The keys are the list's own: the machine has no byte address and no byte order (20 R46; log
entry 1). -/

namespace Sys2Proof.Machine

/-- Memory as a list of cells (log entry 1). -/
abbrev Memory := List Host.Cell

/-- What a key that is not listed reads as: memory is "zero-initialized at startup" (10 R38). -/
def Memory.unlisted : Byte := 0

/-- How many cells the 8192 Words take. -/
def Memory.cellCount : Nat := 16384

/-- The canonical form: keys strictly rising, no cell equal to what an unlisted key reads as, every key in range. -/
abbrev Memory.wf (m : Memory) : Prop :=
  m.Pairwise (fun p q => p.1 < q.1) ∧ ∀ c ∈ m, c.2 ≠ Memory.unlisted ∧ c.1 < Memory.cellCount

/-- The cell of key `k`. -/
def Memory.byteAt : Memory → Nat → Byte
  | [], _ => Memory.unlisted
  | (k, b) :: rest, key => if k = key then b else Memory.byteAt rest key

/-- Set the cell of key `key`, keeping the canonical form. -/
def Memory.setByte : Memory → Nat → Byte → Memory
  | [], key, b => if b = Memory.unlisted then [] else [(key, b)]
  | (k, c) :: rest, key, b =>
    if key < k then (if b = Memory.unlisted then (k, c) :: rest else (key, b) :: (k, c) :: rest)
    else if key = k then (if b = Memory.unlisted then rest else (key, b) :: rest)
    else (k, c) :: Memory.setByte rest key b

/-- The Word at memory index `a` (00 R11; 20 R45). -/
def Memory.wordAt (m : Memory) (a : Addr) : Word :=
  m.byteAt (2 * a.toNat + 1) ++ m.byteAt (2 * a.toNat)

/-- Set the Word at memory index `a` (00 R11; 20 R45). -/
def Memory.setWord (m : Memory) (a : Addr) (v : Word) : Memory :=
  (m.setByte (2 * a.toNat) (v.extractLsb' 0 8)).setByte (2 * a.toNat + 1) (v.extractLsb' 8 8)

/-- The image's Words at indices `a`, `a + 1`, ... over memory that is zero elsewhere (70 R171). -/
def Memory.loadFrom : List Word → Nat → Memory
  | [], _ => []
  | w :: ws, a =>
    [(2 * a, w.extractLsb' 0 8), (2 * a + 1, w.extractLsb' 8 8)].filter (fun c => c.2 ≠ Memory.unlisted) ++
      Memory.loadFrom ws (a + 1)

end Sys2Proof.Machine
end

