-- ==== Sys2Proof/Machine/State.lean ====
section
/-! DEFINITION. The machine's whole state, why a step can stop, and the state after reset (10_state.md R36, R38;
70_reset_and_hazards.md R170, R171). -/

namespace Sys2Proof.Machine

/-- Why the machine has no further step. -/
inductive Fault where
  /-- Raised by `step` alone, on a state whose halted flag is set: "no further instructions fetched" (10 R35; 70 R172).
  It is the spec's own stop, not an error. Safe: the spec gives a halted machine no step (log entry 7). -/
  | halted
  deriving DecidableEq, Repr

/-- Why an instruction has no meaning in the model. -/
inductive Refusal where
  /-- Raised by `exec`'s arm of an instruction that has no meaning yet. No arm does: every instruction is modelled.
  Safe: nothing is claimed of the instruction. -/
  | notModelled (mnemonic : String)
  deriving DecidableEq, Repr

/-- The whole machine state (10 R36). -/
structure State where
  /-- The address of the instruction being executed, 16 bits, never reduced when written (10 R24, R25). -/
  pc : Word
  /-- `x[0]` to `x[7]` (10 R20); entry 0 is hard-wired, by `readReg`, `writeReg` and `forceZero` (10 R21). -/
  regs : Vector Word 8
  /-- The 8192 Words (10 R29). -/
  mem : Memory
  /-- No, one or two cache levels, L1 first (10 R30). -/
  cache : List Level
  /-- Every cache event since reset, oldest first (10 R34). -/
  trace : List CacheEvent
  /-- Set by the halting j (10 R35). -/
  halted : Bool
  deriving DecidableEq, Repr

/-- The state after reset with a given cache configuration and program image (10 R38; 70 R170, R171). -/
def State.resetWith (cfg : CacheCfg) (image : List Word) : State where
  pc := 0
  regs := Vector.replicate 8 0
  mem := Memory.loadFrom image 0
  cache := cacheBuild cfg
  trace := []
  halted := false

/-- The launches the spec allows: a valid configuration and an image of at most 8192 Words; there is no launch for
others (10 R31; 70 R171; 92 D8, D20; log entries 5, 6). -/
def State.launch (cfg : CacheCfg) (image : List Word) : Option State :=
  if cfg.valid = true ∧ image.length ≤ 8192 then some (State.resetWith cfg image) else none

/-- The machine right after reset, before a program image is placed: the implementation's cache configuration, memory
zero (10 R38; log entries 5, 6). -/
def State.reset : State := State.resetWith Config.launchCfg []

end Sys2Proof.Machine
end

