-- ==== Sys2Proof/Machine/Ops.lean ====
section
/-! DEFINITION. The named operations over registers, memory, cache and pc (00_scope.md R11). The machine takes no
exception and has no return from one (60_exceptions.md R150, R153, R154), so there is no such operation. -/

namespace Sys2Proof.Machine

/-- `x[r]`: "register 0 always reads as 0" (00 R11; 10 R21; log entry 15). -/
def State.readReg (s : State) (r : RegNo) : Word := if r = 0 then 0 else s.regs[r.val]

/-- `x[r] <- v`: a write to register 0 is discarded (00 R11; 10 R21). -/
def State.writeReg (s : State) (r : RegNo) (v : Word) : State :=
  if r = 0 then s else { s with regs := s.regs.set r.val v }

/-- `x[0] <- 0`, the end of every step (10 R21; 70 R172). -/
def State.forceZero (s : State) : State := { s with regs := s.regs.set 0 0 }

/-- `pc <- t`. -/
def State.setPc (s : State) (t : Word) : State := { s with pc := t }

/-- `pc <- pc + 1`, modulo 2^16 (10 R24, R25). -/
def State.advance (s : State) : State := s.setPc (s.pc + 1)

/-- `MemRead(a, 1)` (00 R11; 20 R45). -/
def State.memRead (s : State) (a : Addr) : Word := s.mem.wordAt a

/-- `MemWrite(a, 1, v)` (00 R11; 20 R45). -/
def State.memWrite (s : State) (a : Addr) (v : Word) : State := { s with mem := s.mem.setWord a v }

/-- `CacheAccess(a, pc, isStore)` with the pc of the instruction: the rows it updates and the events it appends to
the trace (10 R34; 20 R66). -/
def State.accessCache (s : State) (a : Addr) (isStore : Bool) : State :=
  { s with
    cache := (cacheAccess s.cache a s.pc isStore).1
    trace := s.trace ++ (cacheAccess s.cache a s.pc isStore).2 }

/-- `halt`: the halted flag is set and nothing else changes (10 R35; 41 R122). -/
def State.halt (s : State) : State := { s with halted := true }

/-- The memory index a pc fetches from, `pc mod 8192` (10 R25; 20 R50). -/
def fetchIndex (pc : Word) : Addr := pc.setWidth 13

/-- The instruction word at the pc (30 R80). -/
def State.fetchWord (s : State) : Word := s.memRead (fetchIndex s.pc)

/-- The instruction at the pc (70 R172). -/
def State.fetchInstr (s : State) : Instr := decode s.fetchWord

/-- The end of a step: register 0 is forced back to 0 in the next state (10 R21; 70 R172). -/
def endStep (o : Host.Outcome State Fault Refusal) : Host.Outcome State Fault Refusal :=
  match o with
  | .next s => .next s.forceZero
  | .fault f => .fault f
  | .refused r => .refused r

/-- The instruction of `nbits` bits `w` stored where the next step fetches, on a machine that is running: the stand-in
for loading a program image (log entry 6). -/
def State.placeWord (s : State) (nbits w : Nat) : State :=
  { s with
    mem := s.mem.setWord (fetchIndex s.pc) (BitVec.ofNat 16 (w % 2 ^ nbits))
    halted := false }

end Sys2Proof.Machine
end

