-- ==== Sys2Proof/Machine/Operands.lean ====
section
/-! DEFINITION. The operand forms: the one data addressing mode and the three kinds of jump target
(42_loadstore.md R140; 41_control.md R120 to R125). -/

namespace Sys2Proof.Machine

/-- The effective address of lw and sw: `(x[rs] + imm) mod 8192` (42 R140; 20 R50). -/
def State.effAddr (s : State) (rs : RegNo) (imm : Word) : Addr := (s.readReg rs + imm).setWidth 13

/-- The absolute target of j and jal: `zext_16(imm13)` (30 R87). -/
def jumpTarget (imm13 : Addr) : Word := imm13.setWidth 16

/-- The target of a taken jeq: `pc + 1 + imm`, modulo 2^16 (41 R124). -/
def State.branchTarget (s : State) (imm : Word) : Word := s.pc + 1 + imm

/-- The link value of jal: the 16-bit `pc + 1` (41 R123). -/
def State.linkValue (s : State) : Word := s.pc + 1

/-- The link register of jal (10 R22). -/
def linkReg : RegNo := 7

end Sys2Proof.Machine
end

