-- ==== Sys2Proof/Machine/Alu.lean ====
section
/-! DEFINITION. The ALU and the meanings of the ALU, register-immediate and reserved-function instructions
(40_alu.md). -/

namespace Sys2Proof.Machine

/-- The ALU's operations (40 R100). -/
inductive AluOp where
  | add
  | sub
  | or
  | and
  | ltu
  deriving DecidableEq, Repr

/-- The ALU (40 R100). -/
def alu : AluOp → Word → Word → Word
  | .add, a, b => a + b
  | .sub, a, b => a - b
  | .or, a, b => a ||| b
  | .and, a, b => a &&& b
  | .ltu, a, b => ltuWord a b

/-- `x[dst] <- alu op a b; pc <- pc + 1`: the shared shape of this family. -/
def State.aluWrite (s : State) (op : AluOp) (dst : RegNo) (a b : Word) : State :=
  (s.writeReg dst (alu op a b)).advance

/-- 40 R101. -/
def execAdd (rd rs rt : RegNo) (s : State) : Host.Outcome State Fault Refusal :=
  .next (s.aluWrite .add rd (s.readReg rs) (s.readReg rt))

/-- 40 R102. -/
def execSub (rd rs rt : RegNo) (s : State) : Host.Outcome State Fault Refusal :=
  .next (s.aluWrite .sub rd (s.readReg rs) (s.readReg rt))

/-- 40 R103. -/
def execOr (rd rs rt : RegNo) (s : State) : Host.Outcome State Fault Refusal :=
  .next (s.aluWrite .or rd (s.readReg rs) (s.readReg rt))

/-- 40 R104. -/
def execAnd (rd rs rt : RegNo) (s : State) : Host.Outcome State Fault Refusal :=
  .next (s.aluWrite .and rd (s.readReg rs) (s.readReg rt))

/-- 40 R105. -/
def execSlt (rd rs rt : RegNo) (s : State) : Host.Outcome State Fault Refusal :=
  .next (s.aluWrite .ltu rd (s.readReg rs) (s.readReg rt))

/-- 40 R106; `imm` is `sext_16(imm7)`. -/
def execAddi (rt rs : RegNo) (imm : Word) (s : State) : Host.Outcome State Fault Refusal :=
  .next (s.aluWrite .add rt (s.readReg rs) imm)

/-- 40 R107; `imm` is `zext_16(imm7)`. -/
def execSlti (rt rs : RegNo) (imm : Word) (s : State) : Host.Outcome State Fault Refusal :=
  .next (s.aluWrite .ltu rt (s.readReg rs) imm)

/-- The reserved-funct no-op, funct 5 (40 R108; log entry 8). -/
def execNopFunct5 (s : State) : Host.Outcome State Fault Refusal := .next s.advance

/-- The reserved-funct no-op, funct 6 (40 R108; log entry 8). -/
def execNopFunct6 (s : State) : Host.Outcome State Fault Refusal := .next s.advance

/-- The reserved-funct no-op, funct 7 (40 R108; log entry 8). -/
def execNopFunct7 (s : State) : Host.Outcome State Fault Refusal := .next s.advance

/-- The reserved-funct no-op, funct 9 (40 R108; log entry 8). -/
def execNopFunct9 (s : State) : Host.Outcome State Fault Refusal := .next s.advance

/-- The reserved-funct no-op, funct 10 (40 R108; log entry 8). -/
def execNopFunct10 (s : State) : Host.Outcome State Fault Refusal := .next s.advance

/-- The reserved-funct no-op, funct 11 (40 R108; log entry 8). -/
def execNopFunct11 (s : State) : Host.Outcome State Fault Refusal := .next s.advance

/-- The reserved-funct no-op, funct 12 (40 R108; log entry 8). -/
def execNopFunct12 (s : State) : Host.Outcome State Fault Refusal := .next s.advance

/-- The reserved-funct no-op, funct 13 (40 R108; log entry 8). -/
def execNopFunct13 (s : State) : Host.Outcome State Fault Refusal := .next s.advance

/-- The reserved-funct no-op, funct 14 (40 R108; log entry 8). -/
def execNopFunct14 (s : State) : Host.Outcome State Fault Refusal := .next s.advance

/-- The reserved-funct no-op, funct 15 (40 R108; log entry 8). -/
def execNopFunct15 (s : State) : Host.Outcome State Fault Refusal := .next s.advance

end Sys2Proof.Machine
end

