-- ==== Sys2Proof/Machine/Control.lean ====
section
/-! DEFINITION. The meanings of the control transfer instructions and the halt (41_control.md). -/

namespace Sys2Proof.Machine

/-- `pc <- x[rs]`, all 16 bits (41 R120). -/
def execJr (rs : RegNo) (s : State) : Host.Outcome State Fault Refusal := .next (s.setPc (s.readReg rs))

/-- Halt when the halt test holds, detected before the jump, else `pc <- zext_16(imm13)` (41 R121, R122; log entry 2). -/
def execJ (imm13 : Addr) (s : State) : Host.Outcome State Fault Refusal :=
  .next (if haltTest Config.haltCompare imm13 s.pc then s.halt else s.setPc (jumpTarget imm13))

/-- `x[7] <- pc + 1; pc <- zext_16(imm13)` (41 R123). -/
def execJal (imm13 : Addr) (s : State) : Host.Outcome State Fault Refusal :=
  .next ((s.writeReg linkReg s.linkValue).setPc (jumpTarget imm13))

/-- `pc <- pc + 1 + imm` when the registers are equal, else `pc <- pc + 1` (41 R124); `imm` is `sext_16(imm7)`. -/
def execJeq (rs rt : RegNo) (imm : Word) (s : State) : Host.Outcome State Fault Refusal :=
  .next (if wordsEqual (s.readReg rs) (s.readReg rt) then s.setPc (s.branchTarget imm) else s.advance)

end Sys2Proof.Machine
end

