-- ==== Sys2Proof/Machine/LoadStore.lean ====
section
/-! DEFINITION. The meanings of the load and the store (42_loadstore.md). -/

namespace Sys2Proof.Machine

/-- The cache is accessed as a load, `x[rt] <- mem[addr]`, `pc <- pc + 1`; with `rt = 0` only the value is discarded
(42 R141, R143; 20 R56). -/
def execLw (rt rs : RegNo) (imm : Word) (s : State) : Host.Outcome State Fault Refusal :=
  .next (((s.accessCache (s.effAddr rs imm) false).writeReg rt (s.memRead (s.effAddr rs imm))).advance)

/-- The cache is accessed as a store, `mem[addr] <- x[rt]`, `pc <- pc + 1` (42 R142, R143; 20 R69). -/
def execSw (rt rs : RegNo) (imm : Word) (s : State) : Host.Outcome State Fault Refusal :=
  .next (((s.accessCache (s.effAddr rs imm) true).memWrite (s.effAddr rs imm) (s.readReg rt)).advance)

end Sys2Proof.Machine
end

