-- ==== Sys2Proof/Machine/Dispatch.lean ====
section
/-! DEFINITION. One arm per instruction, each one direct call of its meaning (70_reset_and_hazards.md R172). -/

namespace Sys2Proof.Machine

def exec (i : Instr) (s : State) : Host.Outcome State Fault Refusal :=
  match i with
  | .add rd rs rt => Sys2Proof.Machine.execAdd rd rs rt s
  | .sub rd rs rt => Sys2Proof.Machine.execSub rd rs rt s
  | .or rd rs rt => Sys2Proof.Machine.execOr rd rs rt s
  | .and rd rs rt => Sys2Proof.Machine.execAnd rd rs rt s
  | .slt rd rs rt => Sys2Proof.Machine.execSlt rd rs rt s
  | .jr rs => Sys2Proof.Machine.execJr rs s
  | .nopFunct5 => Sys2Proof.Machine.execNopFunct5 s
  | .nopFunct6 => Sys2Proof.Machine.execNopFunct6 s
  | .nopFunct7 => Sys2Proof.Machine.execNopFunct7 s
  | .nopFunct9 => Sys2Proof.Machine.execNopFunct9 s
  | .nopFunct10 => Sys2Proof.Machine.execNopFunct10 s
  | .nopFunct11 => Sys2Proof.Machine.execNopFunct11 s
  | .nopFunct12 => Sys2Proof.Machine.execNopFunct12 s
  | .nopFunct13 => Sys2Proof.Machine.execNopFunct13 s
  | .nopFunct14 => Sys2Proof.Machine.execNopFunct14 s
  | .nopFunct15 => Sys2Proof.Machine.execNopFunct15 s
  | .addi rt rs imm => Sys2Proof.Machine.execAddi rt rs imm s
  | .j imm13 => Sys2Proof.Machine.execJ imm13 s
  | .jal imm13 => Sys2Proof.Machine.execJal imm13 s
  | .lw rt rs imm => Sys2Proof.Machine.execLw rt rs imm s
  | .sw rt rs imm => Sys2Proof.Machine.execSw rt rs imm s
  | .jeq rs rt imm => Sys2Proof.Machine.execJeq rs rt imm s
  | .slti rt rs imm => Sys2Proof.Machine.execSlti rt rs imm s

end Sys2Proof.Machine
end

