-- ==== Sys2Proof/Machine/Step.lean ====
section
/-! DEFINITION. One step of the machine (70_reset_and_hazards.md R172). -/

namespace Sys2Proof.Machine

/-- A halted machine has no step; otherwise the instruction at the pc is fetched, decoded and executed, and register 0
is forced back to 0 (70 R172; 10 R21, R35). -/
def step (s : State) : Host.Outcome State Fault Refusal :=
  if s.halted then .fault .halted else endStep (exec s.fetchInstr s)

/-- `s` with the instruction of `nbits` bits `w` where `step` fetches next, and running (log entry 6). -/
def State.withFetchWord (s : State) (nbits w : Nat) : State := s.placeWord nbits w

end Sys2Proof.Machine
end

