-- ==== Sys2Proof/Safety.lean ====
section
/-! DEFINITION. The terms the claims use: the rows of the opcode table, the register each instruction writes, the
invariant of a safe run, what "unchanged" means, and what a program can tell apart. -/

namespace Sys2Proof

/-- The rows of the opcode table, in its order: (match, mask) (30_encoding.md R89, opcode_table.json). -/
def opcodeTable : Vector (Word × Word) 23 := #v[
  (0x0000, 0xE00F), (0x0001, 0xE00F), (0x0002, 0xE00F), (0x0003, 0xE00F), (0x0004, 0xE00F), (0x0008, 0xE00F),
  (0x0005, 0xE00F), (0x0006, 0xE00F), (0x0007, 0xE00F), (0x0009, 0xE00F), (0x000A, 0xE00F), (0x000B, 0xE00F),
  (0x000C, 0xE00F), (0x000D, 0xE00F), (0x000E, 0xE00F), (0x000F, 0xE00F),
  (0x2000, 0xE000), (0x4000, 0xE000), (0x6000, 0xE000), (0x8000, 0xE000), (0xA000, 0xE000), (0xC000, 0xE000),
  (0xE000, 0xE000)]

/-- The row of the opcode table an instruction stands for. -/
def Instr.row : Instr → Fin 23
  | .add _ _ _ => 0
  | .sub _ _ _ => 1
  | .or _ _ _ => 2
  | .and _ _ _ => 3
  | .slt _ _ _ => 4
  | .jr _ => 5
  | .nopFunct5 => 6
  | .nopFunct6 => 7
  | .nopFunct7 => 8
  | .nopFunct9 => 9
  | .nopFunct10 => 10
  | .nopFunct11 => 11
  | .nopFunct12 => 12
  | .nopFunct13 => 13
  | .nopFunct14 => 14
  | .nopFunct15 => 15
  | .addi _ _ _ => 16
  | .j _ => 17
  | .jal _ => 18
  | .lw _ _ _ => 19
  | .sw _ _ _ => 20
  | .jeq _ _ _ => 21
  | .slti _ _ _ => 22

/-- The bits of a word that its instruction reads (30 R90): jr ignores bits[9:4], the reserved no-ops bits[12:4]. -/
def Instr.readBits : Instr → Word
  | .jr _ => 0xFC0F
  | .nopFunct5 => 0xE00F
  | .nopFunct6 => 0xE00F
  | .nopFunct7 => 0xE00F
  | .nopFunct9 => 0xE00F
  | .nopFunct10 => 0xE00F
  | .nopFunct11 => 0xE00F
  | .nopFunct12 => 0xE00F
  | .nopFunct13 => 0xE00F
  | .nopFunct14 => 0xE00F
  | .nopFunct15 => 0xE00F
  | .add _ _ _ => 0xFFFF
  | .sub _ _ _ => 0xFFFF
  | .or _ _ _ => 0xFFFF
  | .and _ _ _ => 0xFFFF
  | .slt _ _ _ => 0xFFFF
  | .addi _ _ _ => 0xFFFF
  | .j _ => 0xFFFF
  | .jal _ => 0xFFFF
  | .lw _ _ _ => 0xFFFF
  | .sw _ _ _ => 0xFFFF
  | .jeq _ _ _ => 0xFFFF
  | .slti _ _ _ => 0xFFFF

/-- The register an instruction writes: the table of 10 R23. -/
def Instr.dest : Instr → Option RegNo
  | .add rd _ _ => some rd
  | .sub rd _ _ => some rd
  | .or rd _ _ => some rd
  | .and rd _ _ => some rd
  | .slt rd _ _ => some rd
  | .addi rt _ _ => some rt
  | .slti rt _ _ => some rt
  | .lw rt _ _ => some rt
  | .jal _ => some 7
  | .jr _ => none
  | .j _ => none
  | .jeq _ _ _ => none
  | .sw _ _ _ => none
  | .nopFunct5 => none
  | .nopFunct6 => none
  | .nopFunct7 => none
  | .nopFunct9 => none
  | .nopFunct10 => none
  | .nopFunct11 => none
  | .nopFunct12 => none
  | .nopFunct13 => none
  | .nopFunct14 => none
  | .nopFunct15 => none

/-- lw and sw, the instructions that access data memory and drive the cache (42_loadstore.md). -/
def Instr.accessesData : Instr → Bool
  | .lw _ _ _ => true
  | .sw _ _ _ => true
  | .add _ _ _ => false
  | .sub _ _ _ => false
  | .or _ _ _ => false
  | .and _ _ _ => false
  | .slt _ _ _ => false
  | .jr _ => false
  | .nopFunct5 => false
  | .nopFunct6 => false
  | .nopFunct7 => false
  | .nopFunct9 => false
  | .nopFunct10 => false
  | .nopFunct11 => false
  | .nopFunct12 => false
  | .nopFunct13 => false
  | .nopFunct14 => false
  | .nopFunct15 => false
  | .addi _ _ _ => false
  | .j _ => false
  | .jal _ => false
  | .jeq _ _ _ => false
  | .slti _ _ _ => false

/-- The control transfers, the only instructions whose next pc can be other than `pc + 1` (10 R24). -/
def Instr.transfersControl : Instr → Bool
  | .jr _ => true
  | .j _ => true
  | .jal _ => true
  | .jeq _ _ _ => true
  | .add _ _ _ => false
  | .sub _ _ _ => false
  | .or _ _ _ => false
  | .and _ _ _ => false
  | .slt _ _ _ => false
  | .nopFunct5 => false
  | .nopFunct6 => false
  | .nopFunct7 => false
  | .nopFunct9 => false
  | .nopFunct10 => false
  | .nopFunct11 => false
  | .nopFunct12 => false
  | .nopFunct13 => false
  | .nopFunct14 => false
  | .nopFunct15 => false
  | .addi _ _ _ => false
  | .lw _ _ _ => false
  | .sw _ _ _ => false
  | .slti _ _ _ => false

/-- The register fields of a word of format R, by plain arithmetic on its value (30 R81). -/
def FieldsR (w : Word) (rd rs rt : RegNo) : Prop :=
  rd.val = w.toNat / 16 % 8 ∧ rs.val = w.toNat / 1024 % 8 ∧ rt.val = w.toNat / 128 % 8

/-- The register fields of a word of format I (30 R81). -/
def FieldsI (w : Word) (rs rt : RegNo) : Prop := rs.val = w.toNat / 1024 % 8 ∧ rt.val = w.toNat / 128 % 8

/-- `imm` is the sign-extended 7-bit immediate of a word: `imm7` below 64, else `imm7 + 0xFF80` (00 R10; 30 R85). -/
def SignedImm (w imm : Word) : Prop :=
  imm.toNat = if w.toNat % 128 < 64 then w.toNat % 128 else w.toNat % 128 + 0xFF80

end Sys2Proof

namespace Sys2Proof.Machine

/-- The tags a row holds, from least to most recently used. -/
def rowTags : Row → List Nat
  | [] => []
  | .empty :: rest => rowTags rest
  | .valid t :: rest => t :: rowTags rest

/-- What 20 R68 (items 1, 2, 3 and 5) and R61 say of row `r` of a level: `assoc` blocks, no tag twice, the empty blocks
first, and every tag the tag of an address that maps to this row. -/
abbrev RowWf (l : Level) (r : Nat) (row : Row) : Prop :=
  row.length = l.assoc ∧ (rowTags row).Nodup ∧
    row = List.replicate (l.assoc - (rowTags row).length) Block.empty ++ (rowTags row).map Block.valid ∧
    ∀ t ∈ rowTags row, (t * l.rows + r) * l.blocksize < 8192

/-- A level of a launched machine: its name, a valid geometry (10 R31), `rows` rows (10 R32), each well formed. -/
abbrev LevelWf (name : LevelName) (l : Level) : Prop :=
  l.name = name ∧ 1 ≤ l.assoc ∧ 1 ≤ l.blocksize ∧ 1 ≤ l.rows ∧ l.sets.length = l.rows ∧
    ∀ r < l.rows, RowWf l r (l.sets.getD r [])

/-- The hierarchy of a launched machine: at most two levels, L1 first (10 R30). -/
def cacheWf (cache : List Level) : Bool :=
  match cache with
  | [] => true
  | [l1] => decide (LevelWf .L1 l1)
  | [l1, l2] => decide (LevelWf .L1 l1) && decide (LevelWf .L2 l2)
  | _ => false

/-- Every event names a level of the hierarchy and one of its rows (10 R34). -/
abbrev TraceWf (cache : List Level) (trace : List CacheEvent) : Prop :=
  ∀ e ∈ trace, ∃ l ∈ cache, l.name = e.level ∧ e.rowIndex < l.rows

/-- The invariant of the machine: stored register 0 is 0 (10 R21), memory is canonical (log entry 1), the cache meets
20 R68, the trace meets 10 R34. -/
abbrev State.Inv (s : State) : Prop :=
  s.regs[0] = 0 ∧ s.mem.wf ∧ cacheWf s.cache = true ∧ TraceWf s.cache s.trace

/-- A level is what the configuration triple `g` builds under a name: the triple's associativity and blocksize, the row
count of the formula, and that many rows of empty blocks (10 R30, R32, R38). -/
def BuiltFrom (name : LevelName) (g : Geometry) (l : Level) : Prop :=
  l.name = name ∧ l.assoc = g.assoc ∧ l.blocksize = g.blocksize ∧ l.rows = g.size / (g.assoc * g.blocksize) ∧
    l.sets.length = l.rows ∧ ∀ row ∈ l.sets, row.length = l.assoc ∧ ∀ b ∈ row, b = Block.empty

/-- The row that holds the last `assoc` distinct tags of a sequence of accesses, in the order of their last access, after
the empty blocks; `List.dedup` keeps a tag's last occurrence (20 R68 item 4). -/
def lruRow (assoc : Nat) (tags : List Nat) : Row :=
  List.replicate (assoc - tags.dedup.length) Block.empty ++
    (tags.dedup.drop (tags.dedup.length - assoc)).map Block.valid

/-- The tags of the accesses to row `r` of level `l` that the trace records, oldest first. -/
def tracedTags (trace : List CacheEvent) (l : Level) (r : Nat) : List Nat :=
  (trace.filter (fun e => decide (e.level = l.name ∧ e.rowIndex = r))).map
    (fun e => e.address.toNat / l.blocksize / l.rows)

/-- Every row of every level is the LRU row of the accesses the trace records for it (20 R68 item 4). -/
abbrev State.LruOrdered (s : State) : Prop :=
  ∀ l ∈ s.cache, ∀ r < l.rows, l.sets.getD r [] = lruRow l.assoc (tracedTags s.trace l r)

/-- Every stored register but the destination is unchanged, and so is a destination that is register 0. -/
def RegsKept (s t : State) (dest : Option RegNo) : Prop :=
  ∀ r : RegNo, dest ≠ some r ∨ r = 0 → t.regs[r.val] = s.regs[r.val]

/-- Memory, cells and all, the cache, the trace and the halted flag are unchanged. -/
def RestKept (s t : State) : Prop :=
  t.mem = s.mem ∧ t.cache = s.cache ∧ t.trace = s.trace ∧ t.halted = s.halted

/-- What a level is built as, apart from the contents of its rows (10 R30, R32). -/
def levelShape (l : Level) : LevelName × Nat × Nat × Nat × Nat :=
  (l.name, l.assoc, l.blocksize, l.rows, l.sets.length)

/-- Two states a program cannot tell apart: all but cache and trace agree (10 R33). -/
def State.ProgramEq (s t : State) : Prop :=
  s.pc = t.pc ∧ s.regs = t.regs ∧ s.mem = t.mem ∧ s.halted = t.halted

/-- Two outcomes a program cannot tell apart. -/
def OutcomeEq (o p : Host.Outcome State Fault Refusal) : Prop :=
  match o, p with
  | .next s, .next t => s.ProgramEq t
  | .fault f, .fault g => f = g
  | .refused r, .refused q => r = q
  | _, _ => False

end Sys2Proof.Machine
end

