-- ==== Sys2Proof/Certificates/Slice0/Obligations.lean ====
section
/-! DEFINITION. The statements for the provers, each about the machine, none about a program. Where a statement rests on a
choice the spec marks as its own, its docstring names the log entry. -/

open Sys2Proof Sys2Proof.Machine

/-! Encoding and decoding (30_encoding.md). -/

/-- Decoding the word of a well-formed instruction gives the instruction back, every operand at every value (30 R88, R95). -/
def Obligations.DecodeInvertsEncode : Prop :=
  ∀ i : Instr, i.wellFormed = true → decode (encode i) = i

/-- Every word decodes to an instruction whose operands its word can hold (30 R88, R95). -/
def Obligations.DecodedInstructionsAreWellFormed : Prop :=
  ∀ w : Word, (decode w).wellFormed = true

/-- Encoding what a word decodes to gives back every bit the instruction reads; the bits it ignores are those of
30 R90 (the spec's decision D7, log entry 9). -/
def Obligations.EncodeGivesBackTheReadBits : Prop :=
  ∀ w : Word, encode (decode w) = w &&& (decode w).readBits

/-- A word matches a row of the opcode table exactly when it decodes to that row's instruction, so the rows are
disjoint and cover all words (30 R88, R89). -/
def Obligations.OpcodeRowsPartitionTheWords : Prop :=
  ∀ (w : Word) (k : Fin 23), w &&& opcodeTable[k.val].2 = opcodeTable[k.val].1 ↔ (decode w).row = k

/-- Some words written out from the encodings of the spec (95 V1). -/
def Obligations.SampleWordsDecode : Prop :=
  decode 0x0530 = .add 3 1 2 ∧ decode 0x1C08 = .jr 7 ∧ decode 0x1FFF = .nopFunct15 ∧
    decode 0x3FFF = .addi 7 7 0xFFFF ∧ decode 0x5FFF = .j 8191 ∧ decode 0x600A = .jal 10 ∧
    decode 0x88FF = .lw 1 2 0xFFFF ∧ decode 0xA090 = .sw 1 0 0x0010 ∧ decode 0xC403 = .jeq 1 0 3 ∧
    decode 0xFFFF = .slti 7 7 0x007F

/-! The ALU, register-immediate and reserved-function instructions (40_alu.md). -/

/-- 40 R101, encoding and effect; register 0 as destination discards the result. -/
def Obligations.AddWritesTheWrappedSum : Prop :=
  (∀ w : Word, w &&& 0xE00F#16 = 0x0000#16 → ∃ rd rs rt, decode w = .add rd rs rt ∧ FieldsR w rd rs rt) ∧
  ∀ (rd rs rt : RegNo) (s : State), ∃ t, exec (.add rd rs rt) s = .next t ∧
    (t.readReg rd).toNat = (if rd = 0 then 0 else ((s.readReg rs).toNat + (s.readReg rt).toNat) % 65536) ∧
    t.pc = s.pc + 1 ∧ RegsKept s t (some rd) ∧ RestKept s t

/-- 40 R102, encoding and effect. -/
def Obligations.SubWritesTheWrappedDifference : Prop :=
  (∀ w : Word, w &&& 0xE00F#16 = 0x0001#16 → ∃ rd rs rt, decode w = .sub rd rs rt ∧ FieldsR w rd rs rt) ∧
  ∀ (rd rs rt : RegNo) (s : State), ∃ t, exec (.sub rd rs rt) s = .next t ∧
    (t.readReg rd).toNat =
      (if rd = 0 then 0 else ((s.readReg rs).toNat + 65536 - (s.readReg rt).toNat) % 65536) ∧
    t.pc = s.pc + 1 ∧ RegsKept s t (some rd) ∧ RestKept s t

/-- 40 R103, encoding and effect. -/
def Obligations.OrWritesTheBitwiseOr : Prop :=
  (∀ w : Word, w &&& 0xE00F#16 = 0x0002#16 → ∃ rd rs rt, decode w = .or rd rs rt ∧ FieldsR w rd rs rt) ∧
  ∀ (rd rs rt : RegNo) (s : State), ∃ t, exec (.or rd rs rt) s = .next t ∧
    (∀ k < 16, (t.readReg rd).getLsbD k =
      (decide (rd ≠ 0) && ((s.readReg rs).getLsbD k || (s.readReg rt).getLsbD k))) ∧
    t.pc = s.pc + 1 ∧ RegsKept s t (some rd) ∧ RestKept s t

/-- 40 R104, encoding and effect. -/
def Obligations.AndWritesTheBitwiseAnd : Prop :=
  (∀ w : Word, w &&& 0xE00F#16 = 0x0003#16 → ∃ rd rs rt, decode w = .and rd rs rt ∧ FieldsR w rd rs rt) ∧
  ∀ (rd rs rt : RegNo) (s : State), ∃ t, exec (.and rd rs rt) s = .next t ∧
    (∀ k < 16, (t.readReg rd).getLsbD k =
      (decide (rd ≠ 0) && ((s.readReg rs).getLsbD k && (s.readReg rt).getLsbD k))) ∧
    t.pc = s.pc + 1 ∧ RegsKept s t (some rd) ∧ RestKept s t

/-- slt, encoding and effect: the compare is of the unsigned values, which 40 R105 derives from 00 R9. -/
def Obligations.SltComparesUnsigned : Prop :=
  (∀ w : Word, w &&& 0xE00F#16 = 0x0004#16 → ∃ rd rs rt, decode w = .slt rd rs rt ∧ FieldsR w rd rs rt) ∧
  ∀ (rd rs rt : RegNo) (s : State), ∃ t, exec (.slt rd rs rt) s = .next t ∧
    (t.readReg rd).toNat = (if rd ≠ 0 ∧ (s.readReg rs).toNat < (s.readReg rt).toNat then 1 else 0) ∧
    t.pc = s.pc + 1 ∧ RegsKept s t (some rd) ∧ RestKept s t

/-- 40 R106, encoding and effect, for every immediate the instruction can hold. -/
def Obligations.AddiAddsTheSignedImmediate : Prop :=
  (∀ w : Word, w &&& 0xE000#16 = 0x2000#16 →
    ∃ rt rs imm, decode w = .addi rt rs imm ∧ FieldsI w rs rt ∧ SignedImm w imm) ∧
  ∀ (rt rs : RegNo) (imm : Word) (s : State), ∃ t, exec (.addi rt rs imm) s = .next t ∧
    (t.readReg rt).toNat = (if rt = 0 then 0 else ((s.readReg rs).toNat + imm.toNat) % 65536) ∧
    t.pc = s.pc + 1 ∧ RegsKept s t (some rt) ∧ RestKept s t

/-- 40 R107, encoding and effect: the immediate is zero-extended and the compare unsigned. -/
def Obligations.SltiComparesWithTheUnsignedImmediate : Prop :=
  (∀ w : Word, w &&& 0xE000#16 = 0xE000#16 →
    ∃ rt rs imm, decode w = .slti rt rs imm ∧ FieldsI w rs rt ∧ imm.toNat = w.toNat % 128) ∧
  ∀ (rt rs : RegNo) (imm : Word) (s : State), ∃ t, exec (.slti rt rs imm) s = .next t ∧
    (t.readReg rt).toNat = (if rt ≠ 0 ∧ (s.readReg rs).toNat < imm.toNat then 1 else 0) ∧
    t.pc = s.pc + 1 ∧ RegsKept s t (some rt) ∧ RestKept s t

/-- The ten reserved function codes only advance the pc by 1 (40 R108; the amount is the spec's decision D6, log entry 8,
and the ignored bits its decision D7, log entry 9). -/
def Obligations.ReservedFunctsOnlyAdvanceThePc : Prop :=
  (∀ w : Word, w.toNat / 8192 = 0 → w.toNat % 16 ∈ [5, 6, 7, 9, 10, 11, 12, 13, 14, 15] →
    decode w ∈ [.nopFunct5, .nopFunct6, .nopFunct7, .nopFunct9, .nopFunct10, .nopFunct11, .nopFunct12, .nopFunct13,
      .nopFunct14, .nopFunct15]) ∧
  ∀ s : State, ∀ i ∈ [Instr.nopFunct5, .nopFunct6, .nopFunct7, .nopFunct9, .nopFunct10, .nopFunct11, .nopFunct12,
    .nopFunct13, .nopFunct14, .nopFunct15], exec i s = .next { s with pc := s.pc + 1 }

/-! Control transfer and halt (41_control.md). -/

/-- jr, encoding and effect: all 16 bits of the register go to the pc and nothing else changes (41 R120; that bits[9:4]
are ignored is the spec's decision D7, log entry 9). -/
def Obligations.JrJumpsToTheWholeRegister : Prop :=
  (∀ w : Word, w &&& 0xE00F#16 = 0x0008#16 → ∃ rs, decode w = .jr rs ∧ rs.val = w.toNat / 1024 % 8) ∧
  ∀ (rs : RegNo) (s : State), exec (.jr rs) s = .next { s with pc := s.readReg rs }

/-- j, encoding and effect under the open parameter, and what the parameter's two values mean (41 R121, R122; 92 D5,
log entry 2). -/
def Obligations.JHaltsOrJumps : Prop :=
  (∀ w : Word, w &&& 0xE000#16 = 0x4000#16 → ∃ imm13, decode w = .j imm13 ∧ imm13.toNat = w.toNat % 8192) ∧
  (∀ (imm13 : Addr) (pc : Word),
    (haltTest .full16 imm13 pc = true ↔ imm13.toNat = pc.toNat) ∧
    (haltTest .low13 imm13 pc = true ↔ imm13.toNat = pc.toNat % 8192)) ∧
  ∀ (imm13 : Addr) (s : State), exec (.j imm13) s =
    .next (if haltTest Config.haltCompare imm13 s.pc = true then { s with halted := true }
      else { s with pc := BitVec.ofNat 16 imm13.toNat })

/-- Below address 8192 a j halts exactly when its target is its own address, whichever value the open parameter has, and
the halt changes only the flag (41 R122). -/
def Obligations.SelfJumpBelow8192Halts : Prop :=
  ∀ (imm13 : Addr) (s : State), s.pc.toNat < 8192 →
    exec (.j imm13) s = .next (if imm13.toNat = s.pc.toNat then { s with halted := true }
      else { s with pc := BitVec.ofNat 16 imm13.toNat })

/-- A step leaves the machine halted exactly when the instruction fetched is a j that meets the halt test; there is no
other way to halt (41 R122, with its open parameter, log entry 2). -/
def Obligations.OnlyASelfJumpHalts : Prop :=
  ∀ s t : State, step s = .next t →
    (t.halted = true ↔ ∃ imm13, s.fetchInstr = .j imm13 ∧ haltTest Config.haltCompare imm13 s.pc = true)

/-- 41 R123, encoding and effect: the link is the 16-bit pc + 1, in register 7. -/
def Obligations.JalLinksAndJumps : Prop :=
  (∀ w : Word, w &&& 0xE000#16 = 0x6000#16 → ∃ imm13, decode w = .jal imm13 ∧ imm13.toNat = w.toNat % 8192) ∧
  ∀ (imm13 : Addr) (s : State), ∃ t, exec (.jal imm13) s = .next t ∧
    (t.readReg 7).toNat = (s.pc.toNat + 1) % 65536 ∧ t.pc.toNat = imm13.toNat ∧
    RegsKept s t (some 7) ∧ RestKept s t

/-- 41 R124, encoding and effect: taken on equality of all 16 bits, relative to pc + 1, nothing but the pc changes. -/
def Obligations.JeqBranchesWhenEqual : Prop :=
  (∀ w : Word, w &&& 0xE000#16 = 0xC000#16 →
    ∃ rs rt imm, decode w = .jeq rs rt imm ∧ FieldsI w rs rt ∧ SignedImm w imm) ∧
  ∀ (rs rt : RegNo) (imm : Word) (s : State), ∃ t, exec (.jeq rs rt imm) s = .next t ∧
    t.pc.toNat = (if (s.readReg rs).toNat = (s.readReg rt).toNat then (s.pc.toNat + 1 + imm.toNat) % 65536
      else (s.pc.toNat + 1) % 65536) ∧
    RegsKept s t none ∧ RestKept s t

/-! Loads and stores (42_loadstore.md). -/

/-- 42 R141, encoding and effect: the Word loaded is memory's, the cache is accessed as a load at the same address also
when the destination is register 0, memory is unchanged. -/
def Obligations.LwLoadsTheMemoryWord : Prop :=
  (∀ w : Word, w &&& 0xE000#16 = 0x8000#16 →
    ∃ rt rs imm, decode w = .lw rt rs imm ∧ FieldsI w rs rt ∧ SignedImm w imm) ∧
  ∀ (rt rs : RegNo) (imm : Word) (a : Addr) (s : State),
    a.toNat = ((s.readReg rs).toNat + imm.toNat) % 8192 →
    ∃ t, exec (.lw rt rs imm) s = .next t ∧
      t.readReg rt = (if rt = 0 then 0 else s.mem.wordAt a) ∧ t.pc = s.pc + 1 ∧ RegsKept s t (some rt) ∧
      t.mem = s.mem ∧ t.cache = (cacheAccess s.cache a s.pc false).1 ∧
      t.trace = s.trace ++ (cacheAccess s.cache a s.pc false).2 ∧ t.halted = s.halted

/-- 42 R142, encoding and effect: the Word at the address is the register's, every cell of every other Word is as before,
the cache is accessed as a store at the same address, no register changes. -/
def Obligations.SwStoresTheRegister : Prop :=
  (∀ w : Word, w &&& 0xE000#16 = 0xA000#16 →
    ∃ rt rs imm, decode w = .sw rt rs imm ∧ FieldsI w rs rt ∧ SignedImm w imm) ∧
  ∀ (rt rs : RegNo) (imm : Word) (a : Addr) (s : State), s.mem.wf →
    a.toNat = ((s.readReg rs).toNat + imm.toNat) % 8192 →
    ∃ t, exec (.sw rt rs imm) s = .next t ∧
      t.mem.wordAt a = s.readReg rt ∧ (∀ k, k / 2 ≠ a.toNat → t.mem.byteAt k = s.mem.byteAt k) ∧
      (∀ b, b ≠ a → t.mem.wordAt b = s.mem.wordAt b) ∧ t.pc = s.pc + 1 ∧ t.regs = s.regs ∧
      t.cache = (cacheAccess s.cache a s.pc true).1 ∧
      t.trace = s.trace ++ (cacheAccess s.cache a s.pc true).2 ∧ t.halted = s.halted

/-- A store is seen by the next fetch of its address, from any pc that fetches there (20 R55). -/
def Obligations.StoreIsSeenByTheNextFetch : Prop :=
  ∀ (rt rs : RegNo) (imm p : Word) (s t : State), s.mem.wf →
    p.toNat % 8192 = ((s.readReg rs).toNat + imm.toNat) % 8192 → exec (.sw rt rs imm) s = .next t →
    ({ t with pc := p } : State).fetchInstr = decode (s.readReg rt)

/-! Whole-machine rules and frames. -/

/-- A cell of memory changes only under an sw, and only one of the Word the sw stores to (20 R48; 42 R142): every other
instruction leaves all of memory as it was. -/
def Obligations.MemoryChangesOnlyWhereSwStores : Prop :=
  ∀ (i : Instr) (s t : State), exec i s = .next t →
    (∀ k, t.mem.byteAt k ≠ s.mem.byteAt k →
      ∃ rt rs imm, i = .sw rt rs imm ∧ k / 2 = ((s.readReg rs).toNat + imm.toNat) % 8192) ∧
    ((∀ rt rs imm, i ≠ .sw rt rs imm) → t.mem = s.mem)

/-- Every instruction leaves every register but its destination, and register 0 in any case, as it was (10 R23). -/
def Obligations.OnlyTheDestinationRegisterChanges : Prop :=
  ∀ (i : Instr) (s t : State), exec i s = .next t → RegsKept s t i.dest

/-- Every instruction other than jr, j, jal and a taken jeq goes to pc + 1 (10 R24). -/
def Obligations.OtherInstructionsGoToPcPlusOne : Prop :=
  ∀ (i : Instr) (s t : State), exec i s = .next t →
    (i.transfersControl = false ∨ ∃ rs rt imm, i = .jeq rs rt imm ∧ s.readReg rs ≠ s.readReg rt) →
    t.pc.toNat = (s.pc.toNat + 1) % 65536

/-- A step, its fetch included, changes the cache or the trace only when the instruction fetched is lw or sw (20 R57). -/
def Obligations.OnlyLoadsAndStoresTouchTheCache : Prop :=
  ∀ s t : State, step s = .next t → s.fetchInstr.accessesData = false → t.cache = s.cache ∧ t.trace = s.trace

/-- A running machine's step is the decoded instruction's own next state with stored register 0 set to 0; the word
decoded is memory's at pc modulo 8192 (70 R172; 10 R24, R25). -/
def Obligations.StepRunsTheDecodedInstruction : Prop :=
  ∀ (s : State) (a : Addr), s.halted = false → a.toNat = s.pc.toNat % 8192 →
    ∃ t, exec (decode (s.mem.wordAt a)) s = .next t ∧ step s = .next { t with regs := t.regs.set 0 0 }

/-- Every instruction completes in every state, and the machine has a next step exactly while it is not halted: no
exception, no refusal (60 R150; 10 R35; 70 R172). That a halted machine's step is the fault named halted is the model's
form of the spec's "no further step" (log entry 7); that every instruction is available at all times rests on the spec's
decision D15 of one mode (log entry 12). -/
def Obligations.NothingTrapsAndOnlyTheHaltStops : Prop :=
  (∀ (i : Instr) (s : State), ∃ t, exec i s = .next t) ∧
  (∀ s : State, s.halted = false → ∃ t, step s = .next t) ∧
  ∀ s : State, s.halted = true → step s = .fault .halted

/-- Register 0: it reads 0 in every state, an instruction whose destination it is writes no register, every step leaves
the stored entry 0, and an lw to it has every other effect of an lw (10 R21). -/
def Obligations.RegisterZeroIsHardwired : Prop :=
  (∀ s : State, s.readReg 0 = 0) ∧
  (∀ (i : Instr) (s t : State), exec i s = .next t → i.dest = some 0 → t.regs = s.regs) ∧
  (∀ s t : State, step s = .next t → t.regs[0] = 0 ∧ t.readReg 0 = 0) ∧
  ∀ (rt rs : RegNo) (imm : Word) (s t u : State), exec (.lw 0 rs imm) s = .next t →
    exec (.lw rt rs imm) s = .next u → { t with regs := u.regs } = u

/-- The fetch reduces the pc modulo 8192, the advance wraps modulo 2^16, so the word after the one at pc is at
(pc mod 8192) + 1 modulo 8192 (10 R25). -/
def Obligations.FetchFollowsThePcModulo8192 : Prop :=
  ∀ (s : State) (p q : Word), p.toNat % 8192 = q.toNat % 8192 →
    ({ s with pc := p } : State).fetchWord = ({ s with pc := q } : State).fetchWord ∧
    (fetchIndex (p + 1)).toNat = (q.toNat % 8192 + 1) % 8192

/-- A zero word, such as memory beyond the image, changes only the pc (and register 0 stays 0) (70 R173; 40 R101). -/
def Obligations.ZeroWordOnlyAdvances : Prop :=
  ∀ s : State, s.halted = false → s.fetchWord = 0 →
    step s = .next { s with pc := s.pc + 1, regs := s.regs.set 0 0 }

/-! The address decomposer and the cache controller (20_memory.md). -/

/-- The decomposer's results: the row is one of the level's, row and tag together give the block id, the tag is within
the bound of 20 R61 (20 R59, R61). -/
def Obligations.DecomposeSplitsTheBlockId : Prop :=
  ∀ (address : Addr) (blocksize rows : Nat), 1 ≤ blocksize → 1 ≤ rows →
    (decompose address blocksize rows).1 = address.toNat / blocksize % rows ∧
    (decompose address blocksize rows).2 = address.toNat / blocksize / rows ∧
    (decompose address blocksize rows).1 < rows ∧
    (decompose address blocksize rows).2 * rows + (decompose address blocksize rows).1 =
      address.toNat / blocksize ∧
    (decompose address blocksize rows).2 ≤ 8191 / (blocksize * rows)

/-- 20 R62, R64: a visit finds the tag iff some block of the row holds it; then the first such block is removed, else the
front block, and the tag is appended; every other row and the level's structure stay. -/
def Obligations.VisitReordersTheRowByLru : Prop :=
  ∀ (l : Level) (address : Addr) (pc : Word) (isStore : Bool) (row tag : Nat) (r : Row),
    row = address.toNat / l.blocksize % l.rows → tag = address.toNat / l.blocksize / l.rows →
    l.sets[row]? = some r →
    ((levelVisit l address pc isStore).found = true ↔ ∃ k : Nat, r[k]? = some (.valid tag)) ∧
    (∀ p q, r = p ++ Block.valid tag :: q → Block.valid tag ∉ p →
      (levelVisit l address pc isStore).level.sets[row]? = some (p ++ q ++ [.valid tag])) ∧
    (Block.valid tag ∉ r →
      (levelVisit l address pc isStore).level.sets[row]? = some (r.tail ++ [.valid tag])) ∧
    (∀ k, k ≠ row → (levelVisit l address pc isStore).level.sets[k]? = l.sets[k]?) ∧
    levelShape (levelVisit l address pc isStore).level = levelShape l

/-- 20 R63: a visit's one event, STORE for a store whatever the lookup found, else HIT or MISS by the lookup. -/
def Obligations.VisitEmitsItsOutcome : Prop :=
  ∀ (l : Level) (address : Addr) (pc : Word) (row tag : Nat),
    row = address.toNat / l.blocksize % l.rows → tag = address.toNat / l.blocksize / l.rows →
    (levelVisit l address pc true).event = ⟨l.name, .store, pc, address, row⟩ ∧
    (Block.valid tag ∈ l.sets.getD row [] →
      (levelVisit l address pc false).event = ⟨l.name, .hit, pc, address, row⟩) ∧
    (Block.valid tag ∉ l.sets.getD row [] →
      (levelVisit l address pc false).event = ⟨l.name, .miss, pc, address, row⟩)

/-- 20 R65, R66: with two levels a store visits both, a load visits L2 exactly when L1 misses, L1 first, each visit with
the whole address; with one level that level alone is visited. -/
def Obligations.SecondLevelIsVisitedOnStoreOrMiss : Prop :=
  ∀ (l1 l2 : Level) (address : Addr) (pc : Word),
    (cacheAccess [l1, l2] address pc true =
      ([(levelVisit l1 address pc true).level, (levelVisit l2 address pc true).level],
        [(levelVisit l1 address pc true).event, (levelVisit l2 address pc true).event])) ∧
    ((levelVisit l1 address pc false).event.outcome = .hit →
      cacheAccess [l1, l2] address pc false =
        ([(levelVisit l1 address pc false).level, l2], [(levelVisit l1 address pc false).event])) ∧
    ((levelVisit l1 address pc false).event.outcome = .miss →
      cacheAccess [l1, l2] address pc false =
        ([(levelVisit l1 address pc false).level, (levelVisit l2 address pc false).level],
          [(levelVisit l1 address pc false).event, (levelVisit l2 address pc false).event])) ∧
    ∀ isStore, cacheAccess [l1] address pc isStore =
      ([(levelVisit l1 address pc isStore).level], [(levelVisit l1 address pc isStore).event])

/-- With no cache configured, no step touches cache or trace (20 R67; the empty list is the spec's decision D13). -/
def Obligations.NoCacheMeansNoEvents : Prop :=
  ∀ s t : State, s.cache = [] → step s = .next t → t.cache = [] ∧ t.trace = s.trace

/-- 20 R60, R69: after a store to a well-formed hierarchy every level's row for the address, by that level's own geometry,
ends in the address's tag. -/
def Obligations.StoreAllocatesInEveryLevel : Prop :=
  ∀ (cache : List Level) (address : Addr) (pc : Word), cacheWf cache = true →
    ∀ l ∈ (cacheAccess cache address pc true).1,
      (l.sets.getD (address.toNat / l.blocksize % l.rows) []).getLast? =
        some (.valid (address.toNat / l.blocksize / l.rows))

/-- A load of the address just accessed hits and leaves the level as it is (20 R62 to R64). -/
def Obligations.LoadAfterAccessHits : Prop :=
  ∀ (name : LevelName) (l : Level) (address : Addr) (pc pc' : Word) (isStore : Bool), LevelWf name l →
    (levelVisit (levelVisit l address pc isStore).level address pc' false).event.outcome = .hit ∧
    (levelVisit (levelVisit l address pc isStore).level address pc' false).level =
      (levelVisit l address pc isStore).level

/-- A step never changes the hierarchy's structure, only the contents of rows (10 R30). -/
def Obligations.CacheStructureNeverChanges : Prop :=
  ∀ s t : State, step s = .next t → t.cache.map levelShape = s.cache.map levelShape

/-- A step appends at most two events to the trace, each with the pc of the instruction (whole, the spec's decision D10,
log entry 10) and the address it accesses (10 R34). -/
def Obligations.TraceOnlyGrowsByThisStepsEvents : Prop :=
  ∀ s t : State, step s = .next t → ∃ es, t.trace = s.trace ++ es ∧ es.length ≤ 2 ∧
    ∀ e ∈ es, e.pc = s.pc ∧ ∃ rt rs imm,
      (s.fetchInstr = .lw rt rs imm ∨ s.fetchInstr = .sw rt rs imm) ∧
      e.address.toNat = ((s.readReg rs).toNat + imm.toNat) % 8192

/-- LRU order: after any accesses to one row, starting empty, the row holds the most recent distinct tags in order of
their last access, at most `assoc` of them, after the empty blocks (20 R68 item 4). `List.dedup` keeps a tag's last
occurrence. -/
def Obligations.RowHoldsTheMostRecentTags : Prop :=
  ∀ (assoc : Nat) (tags : List Nat), 1 ≤ assoc →
    tags.foldl rowUpdate (List.replicate assoc .empty) =
      List.replicate (assoc - tags.dedup.length) Block.empty ++
        (tags.dedup.drop (tags.dedup.length - assoc)).map Block.valid

/-- The LRU order as an invariant of the whole machine: if every row of every level is the LRU row of the accesses the
trace records for it, then so it is after every step (20 R68 item 4), from every state that meets the invariant. -/
def Obligations.EveryStepKeepsTheLruOrder : Prop :=
  ∀ s t : State, s.Inv → s.LruOrdered → step s = .next t → t.LruOrdered

/-- The invariant: register 0 stored as 0 (10 R21), memory canonical (log entry 1), the cache as 20 R68 says, the trace
as 10 R34 says; every step from every state that meets it, reachable or not, keeps it. -/
def Obligations.EveryStepKeepsTheInvariant : Prop :=
  ∀ s t : State, s.Inv → step s = .next t → t.Inv

/-- A program cannot observe the cache: runs of any length from two states that differ only in cache and trace end in
states that differ only there, or stop alike (10 R33; 20 R56). -/
def Obligations.ProgramCannotObserveTheCache : Prop :=
  ∀ (k : Nat) (s t : State), s.ProgramEq t → OutcomeEq (Sys2Proof.core.run k s) (Sys2Proof.core.run k t)

/-! Reset and launch (70_reset_and_hazards.md). -/

/-- Every state the machine can be launched in meets the invariant (20 R68; 10 R38). -/
def Obligations.LaunchedStatesMeetTheInvariant : Prop :=
  ∀ (cfg : CacheCfg) (image : List Word) (s : State), State.launch cfg image = some s → s.Inv

/-- In every launched state every row is the LRU row of the accesses recorded, which are none (10 R38; 20 R68 item 4). -/
def Obligations.LaunchedRowsAreInLruOrder : Prop :=
  ∀ (cfg : CacheCfg) (image : List Word) (s : State), State.launch cfg image = some s → s.LruOrdered

/-- The reset state is the launch of the configuration reset builds with the empty image, and meets the invariant,
whatever the open cache configuration is (10 R38; log entries 5, 6). -/
def Obligations.ResetMeetsTheInvariant : Prop :=
  State.launch Config.launchCfg [] = some State.reset ∧ State.reset.Inv

/-- The launched state: pc 0 (decision D2, log entry 3), registers 0 (decision D3, log entry 4), no events, not halted,
and the cache the configuration's: no level, one level L1, or L1 then L2, each with its triple's geometry and every block
of its `size div (assoc * blocksize)` rows empty (10 R30, R32, R38; that no cache is the empty list is decision D13). -/
def Obligations.LaunchSetsTheResetValues : Prop :=
  ∀ (cfg : CacheCfg) (image : List Word) (s : State), State.launch cfg image = some s →
    s.pc = 0 ∧ (∀ r : RegNo, s.regs[r.val] = 0) ∧ s.trace = [] ∧ s.halted = false ∧
    (cfg = .none → s.cache = []) ∧
    (∀ g, cfg = .oneLevel g → ∃ l, s.cache = [l] ∧ BuiltFrom .L1 g l) ∧
    ∀ g1 g2, cfg = .twoLevels g1 g2 → ∃ l1 l2, s.cache = [l1, l2] ∧ BuiltFrom .L1 g1 l1 ∧ BuiltFrom .L2 g2 l2

/-- After launch the Word at `a` is the image's below its length and 0 above (70 R171; 10 R38). -/
def Obligations.LaunchLoadsTheImage : Prop :=
  ∀ (cfg : CacheCfg) (image : List Word) (s : State), State.launch cfg image = some s →
    ∀ a : Addr, s.mem.wordAt a = image.getD a.toNat 0

/-- A launch exists exactly for valid configurations and images that fit; a valid triple's rows fill its size (10 R31,
R32; decisions D8, D20, log entries 5 and 6). -/
def Obligations.OnlyValidConfigurationsLaunch : Prop :=
  (∀ (cfg : CacheCfg) (image : List Word),
    (∃ s, State.launch cfg image = some s) ↔ cfg.valid = true ∧ image.length ≤ 8192) ∧
  CacheCfg.none.valid = true ∧
  (∀ g1 g2 : Geometry, (CacheCfg.twoLevels g1 g2).valid = true ↔
    (CacheCfg.oneLevel g1).valid = true ∧ (CacheCfg.oneLevel g2).valid = true) ∧
  ∀ g : Geometry, (CacheCfg.oneLevel g).valid = true ↔
    1 ≤ g.assoc ∧ 1 ≤ g.blocksize ∧ 1 ≤ g.rows ∧ g.size = g.rows * (g.assoc * g.blocksize)
end

