-- ==== Sys2Proof/Laws/Cache.lean ====
section
/-! SUPPORT. The laws of the cache: what a row update gives, and that a visit keeps a level well formed (20 R64, R68). -/

namespace Sys2Proof.Machine

@[simp] theorem rowTags_append (p q : Row) : rowTags (p ++ q) = rowTags p ++ rowTags q := by
  induction p with
  | nil => rfl
  | cons b p ih => cases b <;> simp [rowTags, ih]

@[simp] theorem rowTags_empty (n : Nat) : rowTags (List.replicate n .empty) = [] := by
  induction n with
  | zero => rfl
  | succ n ih => simpa [List.replicate_succ, rowTags] using ih

@[simp] theorem rowTags_valid (ts : List Nat) : rowTags (ts.map .valid) = ts := by
  induction ts with
  | nil => rfl
  | cons t ts ih => simp [rowTags, ih]

@[simp] theorem mem_rowTags {t : Nat} {row : Row} : t ∈ rowTags row ↔ Block.valid t ∈ row := by
  induction row with
  | nil => simp [rowTags]
  | cons b row ih => cases b <;> simp [rowTags, ih]

/-- The tags after an update of a row in the form of 20 R68, with room for at least one block. -/
def tagsUpdate (assoc : Nat) (ts : List Nat) (t : Nat) : List Nat :=
  if t ∈ ts then ts.erase t ++ [t] else (if ts.length < assoc then ts else ts.drop 1) ++ [t]

/-- An update keeps the form "empty blocks first, then the tags", and updates the tags (20 R64). -/
theorem rowUpdate_form {assoc : Nat} (ha : 1 ≤ assoc) {ts : List Nat} (hl : ts.length ≤ assoc) (t : Nat) :
    rowUpdate (List.replicate (assoc - ts.length) .empty ++ ts.map .valid) t =
      List.replicate (assoc - (tagsUpdate assoc ts t).length) .empty ++ (tagsUpdate assoc ts t).map .valid := by
  have hinj : Function.Injective Block.valid := fun a b h => by cases h; rfl
  unfold rowUpdate tagsUpdate rowFound
  by_cases ht : t ∈ ts
  · have hpos : 1 ≤ ts.length := List.length_pos_of_mem ht
    have hlen : (ts.erase t).length = ts.length - 1 := List.length_erase_of_mem ht
    have hnot : Block.valid t ∉ List.replicate (assoc - ts.length) Block.empty := by simp [List.mem_replicate]
    have : assoc - (ts.length - 1 + 1) = assoc - ts.length := by omega
    simp [ht, List.erase_append_right _ hnot, List.map_erase hinj, hlen, this]
  · by_cases hfull : ts.length < assoc
    · obtain ⟨k, hk⟩ : ∃ k, assoc - ts.length = k + 1 := ⟨assoc - ts.length - 1, by omega⟩
      have : assoc - (ts.length + 1) = k := by omega
      simp [ht, hfull, hk, this, List.replicate_succ]
    · have he : ts.length = assoc := by omega
      have : assoc - (assoc - 1 + 1) = 0 := by omega
      simp [ht, he, this]

/-- The updated tags have no repeat, fit the row, and are the new tag or tags from before. -/
theorem tagsUpdate_spec {assoc : Nat} (ha : 1 ≤ assoc) {ts : List Nat} (hl : ts.length ≤ assoc) (hn : ts.Nodup)
    (t : Nat) :
    (tagsUpdate assoc ts t).Nodup ∧ (tagsUpdate assoc ts t).length ≤ assoc ∧
      ∀ u ∈ tagsUpdate assoc ts t, u = t ∨ u ∈ ts := by
  unfold tagsUpdate
  by_cases ht : t ∈ ts
  · have hlen : (ts.erase t).length = ts.length - 1 := List.length_erase_of_mem ht
    have hpos : 1 ≤ ts.length := List.length_pos_of_mem ht
    rw [if_pos ht]
    refine ⟨List.nodup_append.2 ⟨hn.erase t, by simp, ?_⟩, by simp [hlen]; omega, fun u hu => ?_⟩
    · intro a ha b hb e
      have hb : b = t := by simpa using hb
      subst hb
      subst e
      exact absurd ha hn.not_mem_erase
    · rcases List.mem_append.1 hu with hu | hu
      · exact Or.inr (List.mem_of_mem_erase hu)
      · exact Or.inl (by simpa using hu)
  · rw [if_neg ht]
    have hsub : ∀ u ∈ (if ts.length < assoc then ts else ts.drop 1), u ∈ ts := by
      intro u hu
      split at hu
      · exact hu
      · exact List.mem_of_mem_drop hu
    have hnd : (if ts.length < assoc then ts else ts.drop 1).Nodup := by
      split
      · exact hn
      · exact hn.sublist (List.drop_sublist 1 ts)
    refine ⟨List.nodup_append.2 ⟨hnd, by simp, ?_⟩, ?_, fun u hu => ?_⟩
    · intro a ha b hb e
      have hb : b = t := by simpa using hb
      exact ht (by rw [← hb, ← e]; exact hsub a ha)
    · split <;> simp <;> omega
    · rcases List.mem_append.1 hu with hu | hu
      · exact Or.inr (hsub u hu)
      · exact Or.inl (by simpa using hu)

/-- An update keeps a row well formed when the tag is one of an address of that row (20 R68). -/
theorem RowWf.update {l : Level} {r : Nat} {row : Row} (h : RowWf l r row) (ha : 1 ≤ l.assoc) {t : Nat}
    (ht : (t * l.rows + r) * l.blocksize < 8192) : RowWf l r (rowUpdate row t) := by
  obtain ⟨hlen, hn, hform, hr⟩ := h
  have hle : (rowTags row).length ≤ l.assoc := by
    have := congrArg List.length hform
    rw [hlen] at this
    simp at this
    omega
  obtain ⟨hn', hl', hm'⟩ := tagsUpdate_spec ha hle hn t
  have hup : rowUpdate row t = List.replicate (l.assoc - (tagsUpdate l.assoc (rowTags row) t).length) Block.empty ++
      (tagsUpdate l.assoc (rowTags row) t).map Block.valid := by
    conv_lhs => rw [hform]
    exact rowUpdate_form ha hle t
  have htags : rowTags (rowUpdate row t) = tagsUpdate l.assoc (rowTags row) t := by
    rw [hup, rowTags_append, rowTags_empty, rowTags_valid, List.nil_append]
  refine ⟨by rw [hup]; simp; omega, by rw [htags]; exact hn', by rw [htags]; exact hup, fun u hu => ?_⟩
  rw [htags] at hu
  rcases hm' u hu with rfl | hu
  · exact ht
  · exact hr u hu

/-- The decomposition names a row of the level, and with the tag gives the block id back (20 R59, R61). -/
theorem decompose_spec (address : Addr) (blocksize : Nat) {rows : Nat} (hr : 1 ≤ rows) :
    (decompose address blocksize rows).1 < rows ∧
      (decompose address blocksize rows).2 * rows + (decompose address blocksize rows).1 =
        address.toNat / blocksize := by
  exact ⟨Nat.mod_lt _ hr, Nat.div_add_mod' _ _⟩

@[simp] theorem levelVisit_name (l : Level) (a : Addr) (pc : Word) (st : Bool) :
    (levelVisit l a pc st).level.name = l.name := rfl

@[simp] theorem levelVisit_assoc (l : Level) (a : Addr) (pc : Word) (st : Bool) :
    (levelVisit l a pc st).level.assoc = l.assoc := rfl

@[simp] theorem levelVisit_blocksize (l : Level) (a : Addr) (pc : Word) (st : Bool) :
    (levelVisit l a pc st).level.blocksize = l.blocksize := rfl

@[simp] theorem levelVisit_rows (l : Level) (a : Addr) (pc : Word) (st : Bool) :
    (levelVisit l a pc st).level.rows = l.rows := rfl

/-- A visit keeps a level well formed (20 R68). -/
theorem LevelWf.visit {name : LevelName} {l : Level} (h : LevelWf name l) (a : Addr) (pc : Word) (st : Bool) :
    LevelWf name (levelVisit l a pc st).level := by
  obtain ⟨hname, ha, hb, hrows, hlen, hsets⟩ := h
  obtain ⟨hlt, hid⟩ := decompose_spec a l.blocksize hrows
  have hrange : ((decompose a l.blocksize l.rows).2 * l.rows + (decompose a l.blocksize l.rows).1) * l.blocksize < 8192 := by
    rw [hid]
    exact lt_of_le_of_lt (Nat.div_mul_le_self _ _) a.isLt
  refine ⟨hname, ha, hb, hrows, by simp [levelVisit, hlen], fun r hr => ?_⟩
  have hr : r < l.rows := hr
  show RowWf l r (((l.sets.set _ _)).getD r [])
  by_cases he : (decompose a l.blocksize l.rows).1 = r
  · rw [he, List.getD_eq_getElem _ _ (by simp [hlen, hr]), List.getElem_set_self]
    rw [he] at hrange
    exact (hsets r hr).update ha hrange
  · have h1 : r < (l.sets.set (decompose a l.blocksize l.rows).1
        (rowUpdate (l.sets.getD (decompose a l.blocksize l.rows).1 []) (decompose a l.blocksize l.rows).2)).length := by
      simp [hlen, hr]
    rw [List.getD_eq_getElem _ _ h1, List.getElem_set_ne he, ← List.getD_eq_getElem _ [] (by omega)]
    exact hsets r hr

end Sys2Proof.Machine
end

