-- ==== Sys2Proof/Laws/State.lean ====
section
/-! SUPPORT. What each named operation does to each field of the state, one lemma a field. -/

namespace Sys2Proof.Machine

@[simp] theorem State.writeReg_pc (s : State) (r : RegNo) (v : Word) :
    (s.writeReg r v).pc = s.pc := by unfold State.writeReg; split <;> rfl

@[simp] theorem State.writeReg_mem (s : State) (r : RegNo) (v : Word) :
    (s.writeReg r v).mem = s.mem := by unfold State.writeReg; split <;> rfl

@[simp] theorem State.writeReg_cache (s : State) (r : RegNo) (v : Word) :
    (s.writeReg r v).cache = s.cache := by unfold State.writeReg; split <;> rfl

@[simp] theorem State.writeReg_trace (s : State) (r : RegNo) (v : Word) :
    (s.writeReg r v).trace = s.trace := by unfold State.writeReg; split <;> rfl

@[simp] theorem State.writeReg_halted (s : State) (r : RegNo) (v : Word) :
    (s.writeReg r v).halted = s.halted := by unfold State.writeReg; split <;> rfl

@[simp] theorem State.forceZero_pc (s : State) :
    (s.forceZero).pc = s.pc := rfl

@[simp] theorem State.forceZero_regs (s : State) :
    (s.forceZero).regs = s.regs.set 0 0 := rfl

@[simp] theorem State.forceZero_mem (s : State) :
    (s.forceZero).mem = s.mem := rfl

@[simp] theorem State.forceZero_cache (s : State) :
    (s.forceZero).cache = s.cache := rfl

@[simp] theorem State.forceZero_trace (s : State) :
    (s.forceZero).trace = s.trace := rfl

@[simp] theorem State.forceZero_halted (s : State) :
    (s.forceZero).halted = s.halted := rfl

@[simp] theorem State.setPc_pc (s : State) (t : Word) :
    (s.setPc t).pc = t := rfl

@[simp] theorem State.setPc_regs (s : State) (t : Word) :
    (s.setPc t).regs = s.regs := rfl

@[simp] theorem State.setPc_mem (s : State) (t : Word) :
    (s.setPc t).mem = s.mem := rfl

@[simp] theorem State.setPc_cache (s : State) (t : Word) :
    (s.setPc t).cache = s.cache := rfl

@[simp] theorem State.setPc_trace (s : State) (t : Word) :
    (s.setPc t).trace = s.trace := rfl

@[simp] theorem State.setPc_halted (s : State) (t : Word) :
    (s.setPc t).halted = s.halted := rfl

@[simp] theorem State.advance_pc (s : State) :
    (s.advance).pc = s.pc + 1 := rfl

@[simp] theorem State.advance_regs (s : State) :
    (s.advance).regs = s.regs := rfl

@[simp] theorem State.advance_mem (s : State) :
    (s.advance).mem = s.mem := rfl

@[simp] theorem State.advance_cache (s : State) :
    (s.advance).cache = s.cache := rfl

@[simp] theorem State.advance_trace (s : State) :
    (s.advance).trace = s.trace := rfl

@[simp] theorem State.advance_halted (s : State) :
    (s.advance).halted = s.halted := rfl

@[simp] theorem State.memWrite_pc (s : State) (a : Addr) (v : Word) :
    (s.memWrite a v).pc = s.pc := rfl

@[simp] theorem State.memWrite_regs (s : State) (a : Addr) (v : Word) :
    (s.memWrite a v).regs = s.regs := rfl

@[simp] theorem State.memWrite_mem (s : State) (a : Addr) (v : Word) :
    (s.memWrite a v).mem = s.mem.setWord a v := rfl

@[simp] theorem State.memWrite_cache (s : State) (a : Addr) (v : Word) :
    (s.memWrite a v).cache = s.cache := rfl

@[simp] theorem State.memWrite_trace (s : State) (a : Addr) (v : Word) :
    (s.memWrite a v).trace = s.trace := rfl

@[simp] theorem State.memWrite_halted (s : State) (a : Addr) (v : Word) :
    (s.memWrite a v).halted = s.halted := rfl

@[simp] theorem State.accessCache_pc (s : State) (a : Addr) (st : Bool) :
    (s.accessCache a st).pc = s.pc := rfl

@[simp] theorem State.accessCache_regs (s : State) (a : Addr) (st : Bool) :
    (s.accessCache a st).regs = s.regs := rfl

@[simp] theorem State.accessCache_mem (s : State) (a : Addr) (st : Bool) :
    (s.accessCache a st).mem = s.mem := rfl

@[simp] theorem State.accessCache_cache (s : State) (a : Addr) (st : Bool) :
    (s.accessCache a st).cache = (cacheAccess s.cache a s.pc st).1 := rfl

@[simp] theorem State.accessCache_trace (s : State) (a : Addr) (st : Bool) :
    (s.accessCache a st).trace = s.trace ++ (cacheAccess s.cache a s.pc st).2 := rfl

@[simp] theorem State.accessCache_halted (s : State) (a : Addr) (st : Bool) :
    (s.accessCache a st).halted = s.halted := rfl

@[simp] theorem State.halt_pc (s : State) :
    (s.halt).pc = s.pc := rfl

@[simp] theorem State.halt_regs (s : State) :
    (s.halt).regs = s.regs := rfl

@[simp] theorem State.halt_mem (s : State) :
    (s.halt).mem = s.mem := rfl

@[simp] theorem State.halt_cache (s : State) :
    (s.halt).cache = s.cache := rfl

@[simp] theorem State.halt_trace (s : State) :
    (s.halt).trace = s.trace := rfl

@[simp] theorem State.halt_halted (s : State) :
    (s.halt).halted = true := rfl

@[simp] theorem State.placeWord_pc (s : State) (nbits w : Nat) :
    (s.placeWord nbits w).pc = s.pc := rfl

@[simp] theorem State.placeWord_regs (s : State) (nbits w : Nat) :
    (s.placeWord nbits w).regs = s.regs := rfl

@[simp] theorem State.placeWord_mem (s : State) (nbits w : Nat) :
    (s.placeWord nbits w).mem = s.mem.setWord (fetchIndex s.pc) (BitVec.ofNat 16 (w % 2 ^ nbits)) := rfl

@[simp] theorem State.placeWord_cache (s : State) (nbits w : Nat) :
    (s.placeWord nbits w).cache = s.cache := rfl

@[simp] theorem State.placeWord_trace (s : State) (nbits w : Nat) :
    (s.placeWord nbits w).trace = s.trace := rfl

@[simp] theorem State.placeWord_halted (s : State) (nbits w : Nat) :
    (s.placeWord nbits w).halted = false := rfl

/-- Writing a register sets its stored entry, unless it is register 0. -/
@[simp] theorem State.writeReg_regs (s : State) (r : RegNo) (v : Word) :
    (s.writeReg r v).regs = if r = 0 then s.regs else s.regs.set r.val v := by
  unfold State.writeReg; split <;> rfl

/-- Register 0 reads 0 in every state. -/
@[simp] theorem State.readReg_zero (s : State) : s.readReg 0 = 0 := by simp [State.readReg]

/-- A register other than 0 reads what is stored. -/
theorem State.readReg_of_ne (s : State) {r : RegNo} (h : r ≠ 0) : s.readReg r = s.regs[r.val] := by
  simp [State.readReg, h]

/-- Reading after a write: register 0 reads 0, the register written its value, every other register as before. -/
theorem State.readReg_writeReg (s : State) (d r : RegNo) (v : Word) :
    (s.writeReg d v).readReg r = if r = 0 then 0 else if r = d then v else s.readReg r := by
  unfold State.readReg
  by_cases hr : r = 0
  · simp [hr]
  · by_cases hd : d = 0
    · have : r ≠ d := fun h => hr (h.trans hd)
      simp [hr, hd]
    · by_cases h : r = d
      · subst h; simp [hr]
      · have : d.val ≠ r.val := fun e => h (Fin.ext e.symm)
        simp [hr, hd, h, this]

/-- A write leaves every other stored register alone, and all of them when it names register 0. -/
theorem State.regs_writeReg_kept (s : State) {d r : RegNo} (v : Word) (h : d ≠ r ∨ r = 0) :
    (s.writeReg d v).regs[r.val] = s.regs[r.val] := by
  by_cases hd : d = 0
  · simp [hd]
  · have : d.val ≠ r.val := fun e => by
      rcases h with h | h
      · exact h (Fin.ext e)
      · exact hd (by rw [h] at e; exact Fin.ext e)
    simp [hd, this]

/-- Two states with the same stored registers read the same. -/
theorem State.readReg_congr {s t : State} (h : t.regs = s.regs) (r : RegNo) : t.readReg r = s.readReg r := by
  simp [State.readReg, h]

/-- Forcing register 0 leaves every register reading as before. -/
@[simp] theorem State.readReg_forceZero (s : State) (r : RegNo) : s.forceZero.readReg r = s.readReg r := by
  unfold State.readReg
  by_cases hr : r = 0
  · simp [hr]
  · have : (0 : Nat) ≠ r.val := fun e => hr (Fin.ext e.symm)
    simp [hr, this]

end Sys2Proof.Machine
end

