-- ==== Sys2Proof/Laws/Exec.lean ====
section
/-! SUPPORT. What `exec` answers for each instruction, over the shared operations, and what a step can do. -/

namespace Sys2Proof.Machine

@[simp] theorem exec_add (rd rs rt : RegNo) (s : State) :
    exec (.add rd rs rt) s = .next (s.aluWrite .add rd (s.readReg rs) (s.readReg rt)) := rfl

@[simp] theorem exec_sub (rd rs rt : RegNo) (s : State) :
    exec (.sub rd rs rt) s = .next (s.aluWrite .sub rd (s.readReg rs) (s.readReg rt)) := rfl

@[simp] theorem exec_or (rd rs rt : RegNo) (s : State) :
    exec (.or rd rs rt) s = .next (s.aluWrite .or rd (s.readReg rs) (s.readReg rt)) := rfl

@[simp] theorem exec_and (rd rs rt : RegNo) (s : State) :
    exec (.and rd rs rt) s = .next (s.aluWrite .and rd (s.readReg rs) (s.readReg rt)) := rfl

@[simp] theorem exec_slt (rd rs rt : RegNo) (s : State) :
    exec (.slt rd rs rt) s = .next (s.aluWrite .ltu rd (s.readReg rs) (s.readReg rt)) := rfl

@[simp] theorem exec_jr (rs : RegNo) (s : State) :
    exec (.jr rs) s = .next (s.setPc (s.readReg rs)) := rfl

@[simp] theorem exec_nopFunct5 (s : State) : exec .nopFunct5 s = .next s.advance := rfl

@[simp] theorem exec_nopFunct6 (s : State) : exec .nopFunct6 s = .next s.advance := rfl

@[simp] theorem exec_nopFunct7 (s : State) : exec .nopFunct7 s = .next s.advance := rfl

@[simp] theorem exec_nopFunct9 (s : State) : exec .nopFunct9 s = .next s.advance := rfl

@[simp] theorem exec_nopFunct10 (s : State) : exec .nopFunct10 s = .next s.advance := rfl

@[simp] theorem exec_nopFunct11 (s : State) : exec .nopFunct11 s = .next s.advance := rfl

@[simp] theorem exec_nopFunct12 (s : State) : exec .nopFunct12 s = .next s.advance := rfl

@[simp] theorem exec_nopFunct13 (s : State) : exec .nopFunct13 s = .next s.advance := rfl

@[simp] theorem exec_nopFunct14 (s : State) : exec .nopFunct14 s = .next s.advance := rfl

@[simp] theorem exec_nopFunct15 (s : State) : exec .nopFunct15 s = .next s.advance := rfl

@[simp] theorem exec_addi (rt rs : RegNo) (imm : Word) (s : State) :
    exec (.addi rt rs imm) s = .next (s.aluWrite .add rt (s.readReg rs) imm) := rfl

@[simp] theorem exec_slti (rt rs : RegNo) (imm : Word) (s : State) :
    exec (.slti rt rs imm) s = .next (s.aluWrite .ltu rt (s.readReg rs) imm) := rfl

@[simp] theorem exec_lw (rt rs : RegNo) (imm : Word) (s : State) :
    exec (.lw rt rs imm) s = .next (((s.accessCache (s.effAddr rs imm) false).writeReg rt (s.memRead (s.effAddr rs imm))).advance) := rfl

@[simp] theorem exec_sw (rt rs : RegNo) (imm : Word) (s : State) :
    exec (.sw rt rs imm) s = .next (((s.accessCache (s.effAddr rs imm) true).memWrite (s.effAddr rs imm) (s.readReg rt)).advance) := rfl

@[simp] theorem exec_jeq (rs rt : RegNo) (imm : Word) (s : State) :
    exec (.jeq rs rt imm) s = .next (if wordsEqual (s.readReg rs) (s.readReg rt) then s.setPc (s.branchTarget imm) else s.advance) := rfl

@[simp] theorem exec_j (imm13 : Addr) (s : State) :
    exec (.j imm13) s =
      .next (if haltTest Config.haltCompare imm13 s.pc then s.halt else s.setPc (jumpTarget imm13)) := rfl

@[simp] theorem exec_jal (imm13 : Addr) (s : State) :
    exec (.jal imm13) s = .next ((s.writeReg linkReg s.linkValue).setPc (jumpTarget imm13)) := rfl

@[simp] theorem State.aluWrite_pc (s : State) (op : AluOp) (d : RegNo) (a b : Word) :
    (s.aluWrite op d a b).pc = s.pc + 1 := by simp [State.aluWrite]

@[simp] theorem State.aluWrite_regs (s : State) (op : AluOp) (d : RegNo) (a b : Word) :
    (s.aluWrite op d a b).regs = (s.writeReg d (alu op a b)).regs := by simp [State.aluWrite]

@[simp] theorem State.aluWrite_mem (s : State) (op : AluOp) (d : RegNo) (a b : Word) :
    (s.aluWrite op d a b).mem = s.mem := by simp [State.aluWrite]

@[simp] theorem State.aluWrite_cache (s : State) (op : AluOp) (d : RegNo) (a b : Word) :
    (s.aluWrite op d a b).cache = s.cache := by simp [State.aluWrite]

@[simp] theorem State.aluWrite_trace (s : State) (op : AluOp) (d : RegNo) (a b : Word) :
    (s.aluWrite op d a b).trace = s.trace := by simp [State.aluWrite]

@[simp] theorem State.aluWrite_halted (s : State) (op : AluOp) (d : RegNo) (a b : Word) :
    (s.aluWrite op d a b).halted = s.halted := by simp [State.aluWrite]

/-- If a step answers a next state, the machine was running and that state is the decoded instruction's own next state
with register 0 forced to 0. -/
theorem step_eq_next {s t : State} (h : step s = .next t) :
    s.halted = false ∧ ∃ u, exec s.fetchInstr s = .next u ∧ t = u.forceZero := by
  unfold step at h
  split at h
  · cases h
  · rename_i hh
    refine ⟨by simpa using hh, ?_⟩
    cases he : exec s.fetchInstr s with
    | next u =>
      rw [he] at h
      exact ⟨u, rfl, by injection h with h; exact h.symm⟩
    | fault f => rw [he] at h; cases h
    | refused r => rw [he] at h; cases h

end Sys2Proof.Machine
end

