-- ==== Sys2Proof/Laws/Memory.lean ====
section
/-! SUPPORT. The laws of memory: reading after writing, and that every operation keeps the canonical form. -/

namespace Sys2Proof.Machine

@[simp] theorem Memory.byteAt_nil (k : Nat) : Memory.byteAt [] k = Memory.unlisted := rfl

theorem Memory.byteAt_cons (k : Nat) (b : Byte) (rest : Memory) (key : Nat) :
    Memory.byteAt ((k, b) :: rest) key = if k = key then b else Memory.byteAt rest key := rfl

/-- A key below every listed key is not listed. -/
theorem Memory.byteAt_of_lt {m : Memory} {key : Nat} (h : ∀ c ∈ m, key < c.1) :
    m.byteAt key = Memory.unlisted := by
  induction m with
  | nil => rfl
  | cons c rest ih =>
    obtain ⟨k, b⟩ := c
    have hk : key < k := h (k, b) (by simp)
    rw [Memory.byteAt_cons, if_neg (by omega), ih (fun c hc => h c (by simp [hc]))]

/-- Setting one cell leaves every other cell alone. -/
theorem Memory.byteAt_setByte_ne (m : Memory) {key k : Nat} (b : Byte) (h : k ≠ key) :
    (m.setByte key b).byteAt k = m.byteAt k := by
  induction m with
  | nil => by_cases hb : b = Memory.unlisted <;> simp [Memory.setByte, hb, Memory.byteAt_cons, Ne.symm h]
  | cons c rest ih =>
    obtain ⟨j, c⟩ := c
    unfold Memory.setByte
    split
    · split <;> simp [Memory.byteAt_cons, Ne.symm h]
    · split
      · split <;> (subst_vars; simp [Memory.byteAt_cons, Ne.symm h])
      · simp [Memory.byteAt_cons, ih]

/-- In canonical memory, a cell reads what was set. -/
theorem Memory.byteAt_setByte_self {m : Memory} (hm : m.wf) (key : Nat) (b : Byte) :
    (m.setByte key b).byteAt key = b := by
  induction m with
  | nil => by_cases hb : b = Memory.unlisted <;> simp [Memory.setByte, hb, Memory.byteAt_cons]
  | cons c rest ih =>
    obtain ⟨j, c⟩ := c
    have hlt := (List.pairwise_cons.1 hm.1).1
    have hrest : Memory.wf rest := ⟨(List.pairwise_cons.1 hm.1).2, fun c hc => hm.2 c (by simp [hc])⟩
    unfold Memory.setByte
    split
    · rename_i hk
      split
      · rename_i hb
        rw [hb]
        exact Memory.byteAt_of_lt fun c hc => by
          rcases List.mem_cons.1 hc with rfl | hc
          · exact hk
          · exact lt_trans hk (hlt c hc)
      · simp [Memory.byteAt_cons]
    · split
      · rename_i hk
        subst hk
        split
        · rename_i hb
          rw [hb]
          exact Memory.byteAt_of_lt hlt
        · simp [Memory.byteAt_cons]
      · rename_i hk
        rw [Memory.byteAt_cons, if_neg (Ne.symm hk), ih hrest]

/-- Every cell after a set is the cell set or a cell from before. -/
theorem Memory.mem_setByte {m : Memory} {key : Nat} {b : Byte} {c : Host.Cell} (h : c ∈ m.setByte key b) :
    (c = (key, b) ∧ b ≠ Memory.unlisted) ∨ c ∈ m := by
  induction m with
  | nil =>
    unfold Memory.setByte at h
    split at h
    · simp at h
    · rename_i hb
      exact Or.inl ⟨by simpa using h, hb⟩
  | cons d rest ih =>
    obtain ⟨j, d⟩ := d
    unfold Memory.setByte at h
    split at h
    · split at h
      · exact Or.inr h
      · rename_i hb
        rcases List.mem_cons.1 h with h | h
        · exact Or.inl ⟨h, hb⟩
        · exact Or.inr h
    · split at h
      · split at h
        · exact Or.inr (by simp [h])
        · rename_i hb
          rcases List.mem_cons.1 h with h | h
          · exact Or.inl ⟨h, hb⟩
          · exact Or.inr (by simp [h])
      · rcases List.mem_cons.1 h with h | h
        · exact Or.inr (by simp [h])
        · rcases ih h with h | h
          · exact Or.inl h
          · exact Or.inr (by simp [h])

/-- Setting a cell in range keeps the canonical form. -/
theorem Memory.wf_setByte {m : Memory} (hm : m.wf) {key : Nat} (b : Byte) (hk : key < Memory.cellCount) :
    (m.setByte key b).wf := by
  refine ⟨?_, fun c hc => ?_⟩
  · induction m with
    | nil => by_cases hb : b = Memory.unlisted <;> simp [Memory.setByte, hb]
    | cons d rest ih =>
      obtain ⟨j, d⟩ := d
      have hp := List.pairwise_cons.1 hm.1
      have hrest : Memory.wf rest := ⟨hp.2, fun c hc => hm.2 c (by simp [hc])⟩
      unfold Memory.setByte
      split
      · rename_i hlt
        split
        · exact hm.1
        · refine List.pairwise_cons.2 ⟨fun c hc => ?_, hm.1⟩
          rcases List.mem_cons.1 hc with rfl | hc
          · exact hlt
          · exact lt_trans hlt (hp.1 c hc)
      · split
        · rename_i heq
          subst heq
          split
          · exact hp.2
          · exact List.pairwise_cons.2 ⟨hp.1, hp.2⟩
        · refine List.pairwise_cons.2 ⟨fun c hc => ?_, ih hrest⟩
          rcases Memory.mem_setByte hc with ⟨rfl, -⟩ | hc
          · show j < key
            omega
          · exact hp.1 c hc
  · rcases Memory.mem_setByte hc with ⟨rfl, hb⟩ | hc
    · exact ⟨hb, hk⟩
    · exact hm.2 c hc

/-- Storing a Word keeps the canonical form. -/
theorem Memory.wf_setWord {m : Memory} (hm : m.wf) (a : Addr) (v : Word) : (m.setWord a v).wf := by
  have ha := a.isLt
  exact Memory.wf_setByte (Memory.wf_setByte hm _ (by unfold Memory.cellCount; omega)) _
    (by unfold Memory.cellCount; omega)

/-- Storing a Word leaves every cell of every other Word alone. -/
theorem Memory.byteAt_setWord_ne (m : Memory) {a : Addr} {k : Nat} (v : Word) (h : k / 2 ≠ a.toNat) :
    (m.setWord a v).byteAt k = m.byteAt k := by
  unfold Memory.setWord
  rw [Memory.byteAt_setByte_ne _ _ (by omega), Memory.byteAt_setByte_ne _ _ (by omega)]

/-- In canonical memory, a Word reads what was stored. -/
theorem Memory.wordAt_setWord_self {m : Memory} (hm : m.wf) (a : Addr) (v : Word) :
    (m.setWord a v).wordAt a = v := by
  have ha := a.isLt
  have h1 : (m.setByte (2 * a.toNat) (v.extractLsb' 0 8)).wf :=
    Memory.wf_setByte hm _ (by unfold Memory.cellCount; omega)
  unfold Memory.wordAt Memory.setWord
  rw [Memory.byteAt_setByte_self h1, Memory.byteAt_setByte_ne _ _ (by omega), Memory.byteAt_setByte_self hm]
  exact BitVec.extractLsb'_append_extractLsb'_eq_extractLsb' (by rfl) |>.trans (by simp)

/-- Storing a Word leaves every other Word alone. -/
theorem Memory.wordAt_setWord_ne (m : Memory) {a b : Addr} (v : Word) (h : b ≠ a) :
    (m.setWord a v).wordAt b = m.wordAt b := by
  have hn : b.toNat ≠ a.toNat := fun e => h (BitVec.eq_of_toNat_eq e)
  unfold Memory.wordAt
  rw [Memory.byteAt_setWord_ne _ _ (by omega), Memory.byteAt_setWord_ne _ _ (by omega)]

/-- Every cell of a loaded image belongs to one of its Words and is not zero. -/
theorem Memory.mem_loadFrom {ws : List Word} {a : Nat} {c : Host.Cell} (h : c ∈ Memory.loadFrom ws a) :
    2 * a ≤ c.1 ∧ c.1 < 2 * (a + ws.length) ∧ c.2 ≠ Memory.unlisted := by
  induction ws generalizing a with
  | nil => simp [Memory.loadFrom] at h
  | cons w ws ih =>
    unfold Memory.loadFrom at h
    rcases List.mem_append.1 h with h | h
    · have h' := List.mem_filter.1 h
      have hz : c.2 ≠ Memory.unlisted := by simpa using h'.2
      rcases List.mem_cons.1 h'.1 with rfl | hc
      · exact ⟨by simp, by simp, hz⟩
      · have hc : c = (2 * a + 1, w.extractLsb' 8 8) := by simpa using hc
        subst hc
        exact ⟨by simp, by simp; omega, hz⟩
    · obtain ⟨h1, h2, h3⟩ := ih h
      exact ⟨by omega, by simp; omega, h3⟩

/-- An image that fits is loaded in canonical form. -/
theorem Memory.wf_loadFrom (ws : List Word) (a : Nat) (h : a + ws.length ≤ 8192) :
    (Memory.loadFrom ws a).wf := by
  refine ⟨?_, fun c hc => ?_⟩
  · clear h
    induction ws generalizing a with
    | nil => simp [Memory.loadFrom]
    | cons w ws ih =>
      unfold Memory.loadFrom
      refine List.pairwise_append.2 ⟨List.Pairwise.filter _ (by simp), ih (a + 1), fun p hp q hq => ?_⟩
      have hq := (Memory.mem_loadFrom hq).1
      have hp := (List.mem_filter.1 hp).1
      rcases List.mem_cons.1 hp with rfl | hp
      · show 2 * a < q.1
        omega
      · have hp : p = (2 * a + 1, w.extractLsb' 8 8) := by simpa using hp
        subst hp
        show 2 * a + 1 < q.1
        omega
  · obtain ⟨-, h2, h3⟩ := Memory.mem_loadFrom hc
    exact ⟨h3, by unfold Memory.cellCount; omega⟩

/-- Two canonical memories that read the same are equal data. -/
theorem Memory.ext_of_byteAt {m n : Memory} (hm : m.wf) (hn : n.wf) (h : ∀ k, m.byteAt k = n.byteAt k) : m = n := by
  induction m generalizing n with
  | nil =>
    cases n with
    | nil => rfl
    | cons d n =>
      have := h d.1
      rw [Memory.byteAt_cons, if_pos rfl] at this
      exact absurd this.symm (hn.2 d (by simp)).1
  | cons c m ih =>
    have hc := List.pairwise_cons.1 hm.1
    cases n with
    | nil =>
      have := h c.1
      rw [Memory.byteAt_cons, if_pos rfl] at this
      exact absurd this (hm.2 c (by simp)).1
    | cons d n =>
      have hd := List.pairwise_cons.1 hn.1
      have hlow : ∀ {x y : Host.Cell} {p q : Memory}, Memory.wf (x :: p) → Memory.wf (y :: q) →
          (∀ k, Memory.byteAt (x :: p) k = Memory.byteAt (y :: q) k) → ¬ x.1 < y.1 := by
        intro x y p q hx hy he hlt
        have := he x.1
        rw [Memory.byteAt_cons, if_pos rfl, Memory.byteAt_of_lt] at this
        · exact (hx.2 x (by simp)).1 this
        · intro z hz
          rcases List.mem_cons.1 hz with rfl | hz
          · exact hlt
          · exact lt_trans hlt ((List.pairwise_cons.1 hy.1).1 z hz)
      have hkey : c.1 = d.1 :=
        Nat.le_antisymm (Nat.not_lt.1 (hlow hn hm fun k => (h k).symm)) (Nat.not_lt.1 (hlow hm hn h))
      obtain ⟨ck, cb⟩ := c
      obtain ⟨dk, db⟩ := d
      have hkey : ck = dk := hkey
      subst hkey
      have hb : cb = db := by simpa [Memory.byteAt_cons] using h ck
      subst hb
      rw [ih ⟨hc.2, fun x hx => hm.2 x (by simp [hx])⟩ ⟨hd.2, fun x hx => hn.2 x (by simp [hx])⟩ fun k => ?_]
      by_cases hk : ck = k
      · subst hk
        rw [Memory.byteAt_of_lt hc.1, Memory.byteAt_of_lt hd.1]
      · simpa [Memory.byteAt_cons, hk] using h k

end Sys2Proof.Machine
end

