-- ==== Sys2Proof/Laws/PerInstr.lean ====
section
/-! SUPPORT. Per-instruction facts about the encodings. Family EncodingRow: the word of an instruction lies in the
instruction's row of the opcode table (30_encoding.md R89). -/

namespace Sys2Proof.Laws

/-- A word of format R carries its funct and op 0 under the mask of its rows. -/
theorem encodeR_masked (rs rt rd : RegNo) (funct : BitVec 4) :
    encodeR rs rt rd funct &&& 0xE00F#16 = funct.setWidth 16 := by
  apply BitVec.eq_of_getLsbD_eq
  intro i hi
  interval_cases i <;> simp [encodeR, placeField]

/-- A word of format I carries its op under the mask of its rows. -/
theorem encodeI_masked (op : BitVec 3) (rs rt : RegNo) (imm : Word) :
    encodeI op rs rt imm &&& 0xE000#16 = placeField op 13 := by
  apply BitVec.eq_of_getLsbD_eq
  intro i hi
  interval_cases i <;> simp [encodeI, placeField]

/-- A word of format J carries its op under the mask of its rows. -/
theorem encodeJ_masked (op : BitVec 3) (imm13 : Addr) : encodeJ op imm13 &&& 0xE000#16 = placeField op 13 := by
  apply BitVec.eq_of_getLsbD_eq
  intro i hi
  interval_cases i <;> simp [encodeJ, placeField]

namespace EncodingRow

/-- The word of `i` matches `i`'s row. -/
def Statement (i : Instr) : Prop := encode i &&& opcodeTable[i.row.val].2 = opcodeTable[i.row.val].1

theorem add (rd rs rt : RegNo) : Statement (.add rd rs rt) := encodeR_masked rs rt rd _

theorem sub (rd rs rt : RegNo) : Statement (.sub rd rs rt) := encodeR_masked rs rt rd _

theorem or (rd rs rt : RegNo) : Statement (.or rd rs rt) := encodeR_masked rs rt rd _

theorem and (rd rs rt : RegNo) : Statement (.and rd rs rt) := encodeR_masked rs rt rd _

theorem slt (rd rs rt : RegNo) : Statement (.slt rd rs rt) := encodeR_masked rs rt rd _

theorem jr (rs : RegNo) : Statement (.jr rs) := encodeR_masked rs 0 0 _

theorem nopFunct5 : Statement .nopFunct5 := encodeR_masked 0 0 0 _

theorem nopFunct6 : Statement .nopFunct6 := encodeR_masked 0 0 0 _

theorem nopFunct7 : Statement .nopFunct7 := encodeR_masked 0 0 0 _

theorem nopFunct9 : Statement .nopFunct9 := encodeR_masked 0 0 0 _

theorem nopFunct10 : Statement .nopFunct10 := encodeR_masked 0 0 0 _

theorem nopFunct11 : Statement .nopFunct11 := encodeR_masked 0 0 0 _

theorem nopFunct12 : Statement .nopFunct12 := encodeR_masked 0 0 0 _

theorem nopFunct13 : Statement .nopFunct13 := encodeR_masked 0 0 0 _

theorem nopFunct14 : Statement .nopFunct14 := encodeR_masked 0 0 0 _

theorem nopFunct15 : Statement .nopFunct15 := encodeR_masked 0 0 0 _

theorem addi (rt rs : RegNo) (imm : Word) : Statement (.addi rt rs imm) := encodeI_masked _ rs rt imm

theorem lw (rt rs : RegNo) (imm : Word) : Statement (.lw rt rs imm) := encodeI_masked _ rs rt imm

theorem sw (rt rs : RegNo) (imm : Word) : Statement (.sw rt rs imm) := encodeI_masked _ rs rt imm

theorem jeq (rs rt : RegNo) (imm : Word) : Statement (.jeq rs rt imm) := encodeI_masked _ rs rt imm

theorem slti (rt rs : RegNo) (imm : Word) : Statement (.slti rt rs imm) := encodeI_masked _ rs rt imm

theorem j (imm13 : Addr) : Statement (.j imm13) := encodeJ_masked _ imm13

theorem jal (imm13 : Addr) : Statement (.jal imm13) := encodeJ_masked _ imm13

end EncodingRow

end Sys2Proof.Laws
end

