-- ==== Sys2Proof/Tests/Slice0.lean ====
section
/-! SUPPORT. Small tests: expected values from 95_test_vectors.md, from the encodings of 30_encoding.md or worked by hand
from the rules; and for every statement with hypotheses a witness that meets them. -/

namespace Sys2Proof.Tests

open Sys2Proof.Machine

/-! Words and their instructions: 95 V1, 30 R89. -/

theorem test_decode_alu :
    decode 0x0000 = .add 0 0 0 ∧
    decode 0x0530 = .add 3 1 2 ∧
    decode 0x0531 = .sub 3 1 2 ∧
    decode 0x0532 = .or 3 1 2 ∧
    decode 0x0533 = .and 3 1 2 ∧
    decode 0x0534 = .slt 3 1 2 := by decide

theorem test_decode_reserved :
    decode 0x0535 = .nopFunct5 ∧
    decode 0x0006 = .nopFunct6 ∧
    decode 0x1C77 = .nopFunct7 ∧
    decode 0x0009 = .nopFunct9 ∧
    decode 0x038A = .nopFunct10 ∧
    decode 0x000B = .nopFunct11 ∧
    decode 0x1C0C = .nopFunct12 ∧
    decode 0x000D = .nopFunct13 ∧
    decode 0x000E = .nopFunct14 ∧
    decode 0x1FFF = .nopFunct15 := by decide

theorem test_decode_imm :
    decode 0x2085 = .addi 1 0 0x0005 ∧
    decode 0x253F = .addi 2 1 0x003F ∧
    decode 0x2540 = .addi 2 1 0xFFC0 ∧
    decode 0x3FFF = .addi 7 7 0xFFFF ∧
    decode 0xE57F = .slti 2 1 0x007F ∧
    decode 0xFFFF = .slti 7 7 0x007F := by decide

theorem test_decode_control :
    decode 0x0008 = .jr 0 ∧
    decode 0x1FF8 = .jr 7 ∧
    decode 0x4001 = .j 1 ∧
    decode 0x5FFF = .j 8191 ∧
    decode 0x6000 = .jal 0 ∧
    decode 0x7FFF = .jal 8191 ∧
    decode 0xC07F = .jeq 0 0 0xFFFF ∧
    decode 0xC403 = .jeq 1 0 0x0003 := by decide

theorem test_decode_loadstore :
    decode 0x88FF = .lw 1 2 0xFFFF ∧
    decode 0x9FFF = .lw 7 7 0xFFFF ∧
    decode 0xA090 = .sw 1 0 0x0010 ∧
    decode 0xBFFF = .sw 7 7 0xFFFF := by decide

theorem test_encode_words :
    encode (.add 3 1 2) = 0x0530 ∧ encode (.jr 7) = 0x1C08 ∧ encode .nopFunct9 = 0x0009 ∧
    encode (.addi 2 1 0xFFFF) = 0x257F ∧ encode (.jal 10) = 0x600A ∧ encode (.slti 2 1 127) = 0xE57F := by decide

theorem test_decodeTableWord :
    decodeTableWord 16 0xA090 = some (.sw 1 0 16) ∧ decodeTableWord 8 0x0130 = some (.add 3 0 0) ∧
    decodeTableWord 32 0 = none := by decide

/-! WellFormed: one ill-formed term and the boundary terms for each check (30 R95). -/

theorem test_wf_addi : (Instr.addi 1 0 64).wellFormed = false ∧ (Instr.addi 1 0 0xFFBF).wellFormed = false ∧
    (Instr.addi 1 0 63).wellFormed = true ∧ (Instr.addi 1 0 0xFFC0).wellFormed = true := by decide

theorem test_wf_lw : (Instr.lw 1 0 64).wellFormed = false ∧ (Instr.lw 1 0 63).wellFormed = true := by decide

theorem test_wf_sw : (Instr.sw 1 0 0xFFBF).wellFormed = false ∧ (Instr.sw 1 0 0xFFC0).wellFormed = true := by decide

theorem test_wf_jeq : (Instr.jeq 1 0 0x0080).wellFormed = false ∧ (Instr.jeq 1 0 0xFFFF).wellFormed = true := by decide

theorem test_wf_slti : (Instr.slti 1 0 128).wellFormed = false ∧ (Instr.slti 1 0 0xFFFF).wellFormed = false ∧
    (Instr.slti 1 0 127).wellFormed = true := by decide

/-! One step of each instruction. -/

/-- A running machine without cache: pc, the word there, some registers. -/
def stateAt (pc w : Word) (regs : List (RegNo × Word)) : State :=
  regs.foldl (fun s p => s.writeReg p.1 p.2)
    { State.resetWith .none [] with pc := pc, mem := Memory.setWord [] (fetchIndex pc) w }

/-- The same with one more word of memory. -/
def stateMem (pc w : Word) (regs : List (RegNo × Word)) (a : Addr) (v : Word) : State :=
  (stateAt pc w regs).memWrite a v

/-- The state after one step, if there is one. -/
def after (s : State) : Option State :=
  match step s with
  | .next t => some t
  | .fault _ => none
  | .refused _ => none

/-- Register `r` and the pc after one step. -/
def regPc (s : State) (r : RegNo) : Option (Word × Word) := (after s).map fun t => (t.readReg r, t.pc)

theorem test_add_wraps : regPc (stateAt 0 0x0530 [(1, 0xFFFF), (2, 1)]) 3 = some (0x0000, 1) := by decide

theorem test_add_same_register : regPc (stateAt 0 0x0490 [(1, 0x8001)]) 1 = some (0x0002, 1) := by decide

theorem test_sub_borrows : regPc (stateAt 0 0x0531 [(1, 7), (2, 9)]) 3 = some (0xFFFE, 1) := by decide

theorem test_sub_negates : regPc (stateAt 0 0x00B1 [(1, 1)]) 3 = some (0xFFFF, 1) := by decide

theorem test_or : regPc (stateAt 0 0x0532 [(1, 0x00F0), (2, 0x0F0F)]) 3 = some (0x0FFF, 1) := by decide

theorem test_and : regPc (stateAt 0 0x0533 [(1, 0x00F0), (2, 0x0F3F)]) 3 = some (0x0030, 1) := by decide

theorem test_slt_unsigned : regPc (stateAt 0 0x0534 [(1, 0xFFFF), (2, 1)]) 3 = some (0, 1) := by decide

theorem test_slt_less : regPc (stateAt 0 0x0534 [(1, 7), (2, 9)]) 3 = some (1, 1) := by decide

theorem test_addi_minus_64 : regPc (stateAt 0 0x2540 [(1, 0x0064)]) 2 = some (0x0024, 1) := by decide

theorem test_addi_register_zero : regPc (stateAt 0 0x2405 [(1, 1)]) 0 = some (0, 1) := by decide

theorem test_slti_zero_extends : regPc (stateAt 0 0xE540 [(1, 0x003F)]) 2 = some (1, 1) := by decide

theorem test_slti_large : regPc (stateAt 0 0xE57F [(1, 0xFFFF)]) 2 = some (0, 1) := by decide

theorem test_nopFunct5 : regPc (stateAt 10 0x0535 [(3, 3)]) 3 = some (3, 11) := by decide

theorem test_nopFunct6 : regPc (stateAt 10 0x0536 [(3, 3)]) 3 = some (3, 11) := by decide

theorem test_nopFunct7 : regPc (stateAt 10 0x0537 [(3, 3)]) 3 = some (3, 11) := by decide

theorem test_nopFunct9 : regPc (stateAt 10 0x0539 [(3, 3)]) 3 = some (3, 11) := by decide

theorem test_nopFunct10 : regPc (stateAt 10 0x053A [(3, 3)]) 3 = some (3, 11) := by decide

theorem test_nopFunct11 : regPc (stateAt 10 0x053B [(3, 3)]) 3 = some (3, 11) := by decide

theorem test_nopFunct12 : regPc (stateAt 10 0x053C [(3, 3)]) 3 = some (3, 11) := by decide

theorem test_nopFunct13 : regPc (stateAt 10 0x053D [(3, 3)]) 3 = some (3, 11) := by decide

theorem test_nopFunct14 : regPc (stateAt 10 0x053E [(3, 3)]) 3 = some (3, 11) := by decide

theorem test_nopFunct15 : regPc (stateAt 10 0x1FFF [(3, 3)]) 3 = some (3, 11) := by decide

theorem test_jr_above_8191 : regPc (stateAt 3 0x0408 [(1, 0x9000)]) 1 = some (0x9000, 0x9000) := by decide

theorem test_jr_ignores_bits : regPc (stateAt 3 0x06E8 [(1, 0x002A)]) 1 = some (0x002A, 0x002A) := by decide

theorem test_jal_link_wraps : regPc (stateAt 0xFFFF 0x6000 [(7, 3)]) 7 = some (0, 0) := by decide

theorem test_jal_to_itself : regPc (stateAt 3 0x6003 []) 7 = some (4, 3) := by decide

theorem test_jeq_wraps_below_zero : regPc (stateAt 0 0xC040 []) 0 = some (0, 0xFFC1) := by decide

theorem test_jeq_not_taken : regPc (stateAt 2 0xC403 [(1, 4)]) 1 = some (4, 3) := by decide

theorem test_j_jumps : (after (stateAt 0 0x4005 [])).map (fun t => (t.pc, t.halted)) = some (5, false) := by decide

theorem test_j_halts : (after (stateAt 0x1FFF 0x5FFF [])).map (fun t => (t.pc, t.halted)) = some (0x1FFF, true) := by
  decide

/-- The two readings at a pc above 8191: 95 V3, `j 5` at 0x2005. -/
theorem test_haltTest_readings : haltTest .full16 5 0x2005 = false ∧ haltTest .low13 5 0x2005 = true ∧
    haltTest .full16 5 5 = true ∧ haltTest .low13 5 5 = true ∧ haltTest .low13 5 0x2006 = false := by decide

theorem test_lw_address_wraps : regPc (stateMem 5 0x8881 [(2, 0x1FFF)] 0 0xBEEF) 1 = some (0xBEEF, 6) := by decide

theorem test_lw_base_is_destination : regPc (stateMem 5 0x8480 [(1, 0x0064)] 100 0x0777) 1 = some (0x0777, 6) := by
  decide

theorem test_sw_top_of_memory : (after (stateAt 5 0xA8FF [(1, 9), (2, 0x2000)])).map
    (fun t => (t.mem.wordAt 8191, t.mem.wordAt 5, t.pc)) = some (9, 0xA8FF, 6) := by decide

theorem test_sw_zero_clears : (after (stateMem 5 0xA400 [(1, 0x0064)] 100 0x5555)).map
    (fun t => (t.mem.wordAt 100, t.mem)) = some (0, [(11, 0xA4)]) := by decide

theorem test_pc_wraps : (after (stateAt 0xFFFF 0 [])).map (·.pc) = some 0 := by decide

theorem test_register_zero_forced :
    (after { stateAt 0 0x0535 [] with regs := Vector.replicate 8 5 }).map (fun t => (t.regs[0], t.regs[1])) =
      some (0, 5) := by decide

theorem test_halted_has_no_step : after { stateAt 0 0 [] with halted := true } = none := by decide

/-- The word placed after reset is the instruction the first step runs. -/
theorem test_reset_runs_placed_word :
    (after (State.reset.withFetchWord 16 0x2085)).map (fun t => (t.readReg 1, t.pc)) = some (5, 1) := by decide

/-! Decomposer and controller: 95 V5, V6, W2, W3. -/

theorem test_decompose : decompose 20 4 4 = (1, 1) ∧ decompose 64 4 16 = (0, 1) ∧ decompose 8191 1 1 = (0, 8191) ∧
    decompose 8191 8192 1 = (0, 0) ∧ decompose 100 3 5 = (3, 6) ∧ decompose 8191 2 4096 = (4095, 0) := by decide

/-- 95 V6e: four-way LRU. -/
theorem test_row_lru : rowUpdate [.empty, .valid 1, .valid 2, .valid 3] 1 = [.empty, .valid 2, .valid 3, .valid 1] ∧
    rowUpdate [.empty, .valid 2, .valid 3, .valid 1] 4 = [.valid 2, .valid 3, .valid 1, .valid 4] ∧
    rowUpdate [.valid 2, .valid 3, .valid 1, .valid 4] 5 = [.valid 3, .valid 1, .valid 4, .valid 5] := by decide

/-- 95 V6d's levels, config 8,1,2,32,2,2, after "lw 4". -/
def l1d : Level := ⟨.L1, 1, 2, 4, [[.valid 0], [.empty], [.valid 0], [.empty]]⟩

/-- The second level of 95 V6d after "lw 4". -/
def l2d : Level :=
  ⟨.L2, 2, 2, 8, [.empty, .valid 0] :: [.empty, .empty] :: [.empty, .valid 0] :: List.replicate 5 [.empty, .empty]⟩

theorem test_cache_build : cacheBuild (.twoLevels ⟨8, 1, 2⟩ ⟨32, 2, 2⟩) =
    [⟨.L1, 1, 2, 4, List.replicate 4 [.empty]⟩, ⟨.L2, 2, 2, 8, List.replicate 8 [.empty, .empty]⟩] := by decide

/-- 90 C1: 16,1,4,64,1,4 has 4 and 16 rows. -/
theorem test_row_count : (Geometry.mk 16 1 4).rows = 4 ∧ (Geometry.mk 64 1 4).rows = 16 := by decide

theorem test_config_valid : (CacheCfg.oneLevel ⟨10, 1, 4⟩).valid = false ∧ (CacheCfg.oneLevel ⟨8, 0, 2⟩).valid = false ∧
    (CacheCfg.oneLevel ⟨0, 1, 2⟩).valid = false ∧ (CacheCfg.twoLevels ⟨8, 1, 2⟩ ⟨8, 2, 0⟩).valid = false ∧
    (CacheCfg.oneLevel ⟨64, 1, 4⟩).valid = true := by decide

/-- 95 V6d "lw 16": both levels miss; L1 row 0 is replaced, L2 row 0 keeps tag 0 as least recently used. -/
theorem test_load_miss_visits_both : cacheAccess [l1d, l2d] 16 7 false =
    ([⟨.L1, 1, 2, 4, [[.valid 2], [.empty], [.valid 0], [.empty]]⟩,
      ⟨.L2, 2, 2, 8, [.valid 0, .valid 1] :: [.empty, .empty] :: [.empty, .valid 0] :: List.replicate 5 [.empty, .empty]⟩],
     [⟨.L1, .miss, 7, 16, 0⟩, ⟨.L2, .miss, 7, 16, 0⟩]) := by decide

/-- 95 V6d "lw 0": an L1 hit leaves L2 alone. -/
theorem test_load_hit_stops_at_l1 : cacheAccess [l1d, l2d] 0 7 false = ([l1d, l2d], [⟨.L1, .hit, 7, 0, 0⟩]) := by
  decide

/-- 95 V6d "sw 0": a store visits both. -/
theorem test_store_visits_both : cacheAccess [l1d, l2d] 0 7 true =
    ([l1d, l2d], [⟨.L1, .store, 7, 0, 0⟩, ⟨.L2, .store, 7, 0, 0⟩]) := by decide

/-- 95 W2: one lw of address 0 with cache 64,1,4 emits one miss at row 0. -/
theorem test_lw_emits_event :
    (after { stateAt 1 0x8100 [] with cache := cacheBuild (.oneLevel ⟨64, 1, 4⟩) }).map (·.trace) =
      some [⟨.L1, .miss, 1, 0, 0⟩] := by decide

/-- 95 W3: an sw of address 20 with cache 16,1,4,64,1,4. -/
theorem test_sw_emits_events :
    (after { stateAt 1 0xA094 [(1, 9)] with cache := cacheBuild (.twoLevels ⟨16, 1, 4⟩ ⟨64, 1, 4⟩) }).map (·.trace) =
      some [⟨.L1, .store, 1, 20, 1⟩, ⟨.L2, .store, 1, 20, 5⟩] := by decide

/-- An lw to register 0 still accesses the cache (42 R141). -/
theorem test_lw_register_zero_still_accesses :
    (after { stateAt 1 0x8000 [] with cache := cacheBuild (.oneLevel ⟨64, 1, 4⟩) }).map
      (fun t => (t.readReg 0, t.trace.length)) = some (0, 1) := by decide

theorem test_image_load : Memory.loadFrom [0x2085, 0, 0x4001] 0 =
    [(0, 0x85), (1, 0x20), (4, 0x01), (5, 0x40)] := by decide

/-- 70 R171: words of the image, a zero word of it, and memory beyond it. -/
theorem test_image_words : (State.resetWith .none [0x2085, 0, 0x4001]).mem.wordAt 0 = 0x2085 ∧
    (State.resetWith .none [0x2085, 0, 0x4001]).mem.wordAt 1 = 0 ∧
    (State.resetWith .none [0x2085, 0, 0x4001]).mem.wordAt 2 = 0x4001 ∧
    (State.resetWith .none [0x2085, 0, 0x4001]).mem.wordAt 3 = 0 := by decide

/-! Witnesses: for each statement with hypotheses, inputs that meet all of them. -/

/-- A state in the middle of a run: the levels and the trace of 95 V6d after "lw 0" and "lw 4" (both missing), an lw of
address 16 at the pc, `x[1] = 9`. -/
def busy : State :=
  { stateMem 7 0x8110 [(1, 9)] 16 0x1234 with
    cache := [l1d, l2d]
    trace := [⟨.L1, .miss, 1, 0, 0⟩, ⟨.L2, .miss, 1, 0, 0⟩, ⟨.L1, .miss, 2, 4, 2⟩, ⟨.L2, .miss, 2, 4, 2⟩] }

/-- Both ends of each immediate range meet DecodeInvertsEncode. -/
theorem witness_DecodeInvertsEncode : (Instr.addi 7 0 63).wellFormed = true ∧ (Instr.lw 1 2 0xFFC0).wellFormed = true ∧
    (Instr.slti 2 1 127).wellFormed = true ∧ (Instr.j 8191).wellFormed = true := by decide

/-- A word of each row named by the per-instruction statements. -/
theorem witness_row_words : 0x0530#16 &&& 0xE00F#16 = 0x0000#16 ∧ 0x0531#16 &&& 0xE00F#16 = 0x0001#16 ∧
    0x0532#16 &&& 0xE00F#16 = 0x0002#16 ∧ 0x0533#16 &&& 0xE00F#16 = 0x0003#16 ∧ 0x0534#16 &&& 0xE00F#16 = 0x0004#16 ∧
    0x1FF8#16 &&& 0xE00F#16 = 0x0008#16 ∧ 0x2540#16 &&& 0xE000#16 = 0x2000#16 ∧ 0x5FFF#16 &&& 0xE000#16 = 0x4000#16 ∧
    0x7FFF#16 &&& 0xE000#16 = 0x6000#16 ∧ 0x88FF#16 &&& 0xE000#16 = 0x8000#16 ∧ 0xBFFF#16 &&& 0xE000#16 = 0xA000#16 ∧
    0xC07F#16 &&& 0xE000#16 = 0xC000#16 ∧ 0xFFFF#16 &&& 0xE000#16 = 0xE000#16 := by decide

/-- The fields and immediates of two words, below and above the sign boundary. -/
theorem witness_fields : FieldsR 0x0530 3 1 2 ∧ FieldsI 0x253F 1 2 ∧ SignedImm 0x253F 63 ∧ SignedImm 0x2540 0xFFC0 := by
  unfold FieldsR FieldsI SignedImm; decide

theorem witness_ReservedFunctsOnlyAdvanceThePc : (0x1FFF#16).toNat / 8192 = 0 ∧
    (0x1FFF#16).toNat % 16 ∈ [5, 6, 7, 9, 10, 11, 12, 13, 14, 15] ∧
    (0x0005#16).toNat % 16 ∈ [5, 6, 7, 9, 10, 11, 12, 13, 14, 15] := by decide

/-- The last pc of SelfJumpBelow8192Halts, for the halting and the jumping form. -/
theorem witness_SelfJumpBelow8192Halts : (stateAt 8191 0x5FFF []).pc.toNat < 8192 ∧
    (8191#13).toNat = (stateAt 8191 0x5FFF []).pc.toNat ∧ (5#13).toNat ≠ (stateAt 8191 0x5FFF []).pc.toNat := by decide

/-- Steps that answer a next state: one that halts, one that does not. -/
theorem witness_OnlyASelfJumpHalts : (∃ t, step (stateAt 1 0x4001 []) = .next t ∧ t.halted = true) ∧
    ∃ t, step (stateAt 0 0x2085 []) = .next t ∧ t.halted = false :=
  ⟨⟨_, rfl, by decide⟩, ⟨_, rfl, by decide⟩⟩

/-- Addresses that wrap and at the top. -/
theorem witness_LwLoadsTheMemoryWord :
    (0#13).toNat = (((stateAt 5 0x8881 [(2, 0x1FFF)]).readReg 2).toNat + (1#16).toNat) % 8192 ∧
    (8191#13).toNat = (((stateAt 5 0x80FF []).readReg 0).toNat + (0xFFFF#16).toNat) % 8192 := by decide

theorem witness_SwStoresTheRegister : busy.mem.wf ∧
    (25#13).toNat = ((busy.readReg 1).toNat + (16#16).toNat) % 8192 := by decide

theorem witness_StoreIsSeenByTheNextFetch : busy.mem.wf ∧
    (0x2019#16).toNat % 8192 = ((busy.readReg 1).toNat + (16#16).toNat) % 8192 ∧
    ∃ t, exec (.sw 1 1 16) busy = .next t := ⟨by decide, by decide, _, rfl⟩

/-- A store changes a cell, and another instruction answers a next state. -/
theorem witness_MemoryChangesOnlyWhereSwStores :
    (∃ t, exec (.sw 1 1 16) busy = .next t ∧ t.mem.byteAt 50 ≠ busy.mem.byteAt 50) ∧
    (∃ t, exec (.add 1 1 1) busy = .next t) ∧ ∀ rt rs imm, Instr.add 1 1 1 ≠ .sw rt rs imm :=
  ⟨⟨_, rfl, by decide⟩, ⟨_, rfl⟩, nofun⟩

/-- Another register than the destination, and register 0 as the destination. -/
theorem witness_OnlyTheDestinationRegisterChanges :
    (∃ t, exec (.jal 10) busy = .next t) ∧ (Instr.jal 10).dest ≠ some 1 ∧
    (∃ t, exec (.lw 0 1 0) busy = .next t) ∧ (Instr.lw 0 1 0).dest = some 0 :=
  ⟨⟨_, rfl⟩, by decide, ⟨_, rfl⟩, by decide⟩

theorem witness_OtherInstructionsGoToPcPlusOne :
    (∃ t, exec (.lw 1 0 16) busy = .next t) ∧ (Instr.lw 1 0 16).transfersControl = false ∧
    (∃ t, exec (.jeq 1 0 3) busy = .next t) ∧ busy.readReg 1 ≠ busy.readReg 0 :=
  ⟨⟨_, rfl⟩, by decide, ⟨_, rfl⟩, by decide⟩

theorem witness_OnlyLoadsAndStoresTouchTheCache : (∃ t, step (busy.withFetchWord 16 0x0490) = .next t) ∧
    (busy.withFetchWord 16 0x0490).fetchInstr.accessesData = false := ⟨⟨_, rfl⟩, by decide⟩

theorem witness_StepRunsTheDecodedInstruction : (stateAt 0x2005 0x2085 []).halted = false ∧
    (5#13).toNat = (stateAt 0x2005 0x2085 []).pc.toNat % 8192 := by decide

theorem witness_NothingTrapsAndOnlyTheHaltStops : busy.halted = false ∧ busy.halt.halted = true := by decide

theorem witness_RegisterZeroIsHardwired :
    (∃ t, exec (.addi 0 1 5) busy = .next t) ∧ (Instr.addi 0 1 5).dest = some 0 ∧ (∃ t, step busy = .next t) ∧
    (∃ t, exec (.lw 0 0 16) busy = .next t) ∧ ∃ u, exec (.lw 2 0 16) busy = .next u :=
  ⟨⟨_, rfl⟩, by decide, ⟨_, rfl⟩, ⟨_, rfl⟩, ⟨_, rfl⟩⟩

theorem witness_FetchFollowsThePcModulo8192 : (0xFFFF#16).toNat % 8192 = (0x1FFF#16).toNat % 8192 := by decide

theorem witness_ZeroWordOnlyAdvances : (stateAt 3 0 []).halted = false ∧ (stateAt 3 0 []).fetchWord = 0 := by decide

theorem witness_DecomposeSplitsTheBlockId : 1 ≤ (1 : Nat) ∧ (decompose 8191 1 1).2 = 8191 / (1 * 1) := by decide

/-- A row that holds the tag (address 0), a row that does not (address 16), and another row. -/
theorem witness_VisitReordersTheRowByLru :
    l2d.sets[(0#13).toNat / l2d.blocksize % l2d.rows]? = some ([.empty] ++ Block.valid 0 :: []) ∧
    (0#13).toNat / l2d.blocksize / l2d.rows = 0 ∧ Block.valid 0 ∉ ([.empty] : Row) ∧
    (16#13).toNat / l2d.blocksize % l2d.rows = 0 ∧ (16#13).toNat / l2d.blocksize / l2d.rows = 1 ∧
    Block.valid 1 ∉ ([.empty, .valid 0] : Row) ∧ (7 : Nat) ≠ 0 := by decide

theorem witness_VisitEmitsItsOutcome :
    Block.valid ((0#13).toNat / l1d.blocksize / l1d.rows) ∈ l1d.sets.getD ((0#13).toNat / l1d.blocksize % l1d.rows) [] ∧
    Block.valid ((16#13).toNat / l1d.blocksize / l1d.rows) ∉
      l1d.sets.getD ((16#13).toNat / l1d.blocksize % l1d.rows) [] := by decide

theorem witness_SecondLevelIsVisitedOnStoreOrMiss : (levelVisit l1d 0 7 false).event.outcome = .hit ∧
    (levelVisit l1d 16 7 false).event.outcome = .miss := by decide

theorem witness_NoCacheMeansNoEvents : (stateAt 5 0xA090 [(1, 7)]).cache = [] ∧
    ∃ t, step (stateAt 5 0xA090 [(1, 7)]) = .next t := ⟨rfl, _, rfl⟩

theorem witness_StoreAllocatesInEveryLevel : cacheWf [l1d, l2d] = true ∧ cacheWf [l1d] = true := by decide

theorem witness_LoadAfterAccessHits : LevelWf .L1 l1d ∧ LevelWf .L2 l2d := by decide

/-- The step of `busy`: an lw that misses in both levels, so the trace grows by two events. -/
theorem witness_CacheStructureNeverChanges_and_TraceOnlyGrows :
    ∃ t, step busy = .next t ∧ t.trace = busy.trace ++ [⟨.L1, .miss, 7, 16, 0⟩, ⟨.L2, .miss, 7, 16, 0⟩] :=
  ⟨_, rfl, by decide⟩

theorem witness_RowHoldsTheMostRecentTags : 1 ≤ (1 : Nat) ∧
    [7, 8].foldl rowUpdate (List.replicate 1 .empty) = [.valid 8] := by decide

theorem witness_EveryStepKeepsTheInvariant : busy.Inv ∧ ∃ t, step busy = .next t := ⟨by decide, _, rfl⟩

theorem witness_EveryStepKeepsTheLruOrder : busy.Inv ∧ busy.LruOrdered ∧ ∃ t, step busy = .next t :=
  ⟨by decide, by decide, _, rfl⟩

/-- 95 V6e: the accesses 1 2 3 1 4 5 1 2 to a row of four blocks, and the first four of them. -/
theorem test_lruRow : lruRow 4 [1, 2, 3, 1, 4, 5, 1, 2] = [.valid 4, .valid 5, .valid 1, .valid 2] ∧
    lruRow 4 [1, 2, 3, 1] = [.empty, .valid 2, .valid 3, .valid 1] := by decide

theorem witness_ProgramCannotObserveTheCache :
    busy.ProgramEq { busy with cache := [], trace := [] } ∧ busy ≠ { busy with cache := [], trace := [] } :=
  ⟨⟨rfl, rfl, rfl, rfl⟩, by decide⟩

/-- Launches of the smallest and the largest image, with and without cache: for every statement about launched states. -/
theorem witness_launch : (∃ s, State.launch .none [] = some s) ∧
    (∃ s, State.launch (.twoLevels ⟨8, 1, 2⟩ ⟨32, 2, 2⟩) [0x2085, 0x4001] = some s) ∧
    ∃ s, State.launch (.oneLevel ⟨64, 1, 4⟩) (List.replicate 8192 1) = some s :=
  ⟨⟨_, if_pos ⟨rfl, by simp⟩⟩, ⟨_, if_pos ⟨by decide, by simp⟩⟩, ⟨_, if_pos ⟨by decide, List.length_replicate.le⟩⟩⟩

end Sys2Proof.Tests
end

section
/-! SUPPORT. The words of format R: what a match of a row of format R says of the fields, and the fields by arithmetic
(30_encoding.md R81, R88, R89). -/

namespace Sys2Proof

/-- A word in the row of `funct` under the mask of format R has op 0 and that funct (30 R89). -/
theorem fields_of_masked_eq_funct {w : Word} {funct : BitVec 4} (h : w &&& 0xE00F#16 = funct.setWidth 16) :
    opField w = 0 ∧ functField w = funct.toNat := by
  have bit (i : Nat) : (w.getLsbD i && (0xE00F#16).getLsbD i) = (funct.setWidth 16).getLsbD i := by
    rw [← h, BitVec.getLsbD_and]
  have hop : w.extractLsb' 13 3 = 0 := by
    apply BitVec.eq_of_getLsbD_eq
    intro i hi
    have := bit (13 + i)
    interval_cases i <;> simpa using this
  have hfunct : w.extractLsb' 0 4 = funct := by
    apply BitVec.eq_of_getLsbD_eq
    intro i hi
    have := bit i
    interval_cases i <;> simpa using this
  exact ⟨congrArg BitVec.toFin hop, congrArg BitVec.toNat hfunct⟩

/-- Under op 0 the decoder is the decoder of the function codes (30 R88). -/
theorem decode_of_opField_zero {w : Word} (h : opField w = 0) : decode w = decodeFunct w := by
  simp [decode, h]

/-- The register fields of format R are the digits of the word's value (30 R81). -/
theorem fieldsR_fields (w : Word) : FieldsR w (rdField w) (rsField w) (rtField w) := by
  simp [FieldsR, rdField, rsField, rtField, Nat.shiftRight_eq_div_pow]

/-- Every word of slt's row decodes to slt with the word's register fields (30 R88, R89). -/
theorem decode_eq_slt {w : Word} (h : w &&& 0xE00F#16 = 0x0004#16) :
    decode w = .slt (rdField w) (rsField w) (rtField w) := by
  obtain ⟨hop, hfunct⟩ := fields_of_masked_eq_funct (funct := 4) h
  simp [decode_of_opField_zero hop, decodeFunct, hfunct]

end Sys2Proof
end

section
/-! SUPPORT. The ALU family's shared operation against the frame the statements ask for (40_alu.md R100). -/

namespace Sys2Proof.Machine

/-- The unsigned compare as a number (40 R100, row LTU). -/
@[simp] theorem toNat_ltuWord (a b : Word) : (ltuWord a b).toNat = if a.toNat < b.toNat then 1 else 0 := by
  unfold ltuWord; split <;> rfl

/-- The destination reads the ALU's result, register 0 reads 0. -/
theorem State.readReg_aluWrite_dest (s : State) (op : AluOp) (d : RegNo) (a b : Word) :
    (s.aluWrite op d a b).readReg d = if d = 0 then 0 else alu op a b := by
  rw [State.readReg_congr (State.aluWrite_regs s op d a b), State.readReg_writeReg, if_pos rfl]

/-- What slt and slti leave in their destination: the unsigned compare, discarded for register 0 (40 R105, R107). -/
theorem toNat_readReg_aluWrite_ltu (s : State) (d : RegNo) (a b : Word) :
    ((s.aluWrite .ltu d a b).readReg d).toNat = if d ≠ 0 ∧ a.toNat < b.toNat then 1 else 0 := by
  rw [State.readReg_aluWrite_dest]
  by_cases hd : d = 0
  · simp [hd]
  · simp [hd, alu]

/-- A state whose stored registers are those of a register write keeps all but the destination. -/
theorem RegsKept.of_writeReg {s t : State} {d : RegNo} {v : Word} (h : t.regs = (s.writeReg d v).regs) :
    RegsKept s t (some d) := by
  intro r hr
  rw [h]
  exact s.regs_writeReg_kept v (hr.imp_left fun hne e => hne (congrArg some e))

/-- The ALU family goes to pc + 1 and changes nothing but its destination. -/
theorem State.aluWrite_frame (s : State) (op : AluOp) (d : RegNo) (a b : Word) :
    (s.aluWrite op d a b).pc = s.pc + 1 ∧ RegsKept s (s.aluWrite op d a b) (some d) ∧
      RestKept s (s.aluWrite op d a b) :=
  ⟨s.aluWrite_pc op d a b, .of_writeReg (s.aluWrite_regs op d a b),
    s.aluWrite_mem op d a b, s.aluWrite_cache op d a b, s.aluWrite_trace op d a b, s.aluWrite_halted op d a b⟩

end Sys2Proof.Machine
end

section
/-! The ALU instructions' statements (40_alu.md section 2). -/

namespace Sys2Proof.Machine

/-- Settles O10: the row fixes op and funct, and slt is one `aluWrite` of the unsigned compare. -/
theorem sltComparesUnsigned : Obligations.SltComparesUnsigned := by
  unfold Obligations.SltComparesUnsigned
  constructor
  · intro w h
    exact ⟨_, _, _, decode_eq_slt h, fieldsR_fields w⟩
  · intro rd rs rt s
    exact ⟨_, exec_slt rd rs rt s, toNat_readReg_aluWrite_ltu s rd _ _, s.aluWrite_frame .ltu rd _ _⟩

end Sys2Proof.Machine
end

section
/-! SUPPORT. What one instruction and one step can do to the state: one constructor for each shape of next state, so that
a statement about all 23 instructions is a split into seven cases (40_alu.md, 41_control.md, 42_loadstore.md). -/

namespace Sys2Proof.Machine

/-- The next states `exec i s` can answer, by the operation the instruction is made of. -/
inductive Effect (i : Instr) (s : State) : State → Prop
  /-- The ALU family (40 R101 to R107). -/
  | alu (op : AluOp) (d : RegNo) (a b : Word) (hdest : i.dest = some d) (hdata : i.accessesData = false) :
      Effect i s (s.aluWrite op d a b)
  /-- A reserved function code or an untaken jeq (40 R108; 41 R124). -/
  | advance (hdata : i.accessesData = false) : Effect i s s.advance
  /-- jr, a jumping j or a taken jeq (41 R120, R121, R124). -/
  | jump (target : Word) (hdata : i.accessesData = false) (hctl : i.transfersControl = true)
      (hjeq : ∀ rs rt imm, i = .jeq rs rt imm → s.readReg rs = s.readReg rt) : Effect i s (s.setPc target)
  /-- A halting j (41 R122). -/
  | halt (imm13 : Addr) (hi : i = .j imm13) : Effect i s s.halt
  /-- jal (41 R123). -/
  | link (imm13 : Addr) (hi : i = .jal imm13) :
      Effect i s ((s.writeReg linkReg s.linkValue).setPc (jumpTarget imm13))
  /-- lw (42 R141). -/
  | load (rt rs : RegNo) (imm : Word) (hi : i = .lw rt rs imm) :
      Effect i s ((s.accessCache (s.effAddr rs imm) false).writeReg rt (s.memRead (s.effAddr rs imm))).advance
  /-- sw (42 R142). -/
  | store (rt rs : RegNo) (imm : Word) (hi : i = .sw rt rs imm) :
      Effect i s ((s.accessCache (s.effAddr rs imm) true).memWrite (s.effAddr rs imm) (s.readReg rt)).advance

/-- Every instruction completes in every state, with one of the effects. -/
theorem exec_effect (i : Instr) (s : State) : ∃ t, exec i s = .next t ∧ Effect i s t := by
  cases i with
  | add d a b | sub d a b | or d a b | and d a b | slt d a b | addi d a imm | slti d a imm =>
    exact ⟨_, rfl, .alu _ d _ _ rfl rfl⟩
  | nopFunct5 | nopFunct6 | nopFunct7 | nopFunct9 | nopFunct10 | nopFunct11 | nopFunct12 | nopFunct13
  | nopFunct14 | nopFunct15 => exact ⟨_, rfl, .advance rfl⟩
  | jr rs => exact ⟨_, rfl, .jump _ rfl rfl nofun⟩
  | j imm13 =>
    refine ⟨_, exec_j imm13 s, ?_⟩
    split
    · exact .halt imm13 rfl
    · exact .jump _ rfl rfl nofun
  | jal imm13 => exact ⟨_, rfl, .link imm13 rfl⟩
  | lw rt rs imm => exact ⟨_, rfl, .load rt rs imm rfl⟩
  | sw rt rs imm => exact ⟨_, rfl, .store rt rs imm rfl⟩
  | jeq rs rt imm =>
    refine ⟨_, exec_jeq rs rt imm s, ?_⟩
    split
    next heq =>
      refine .jump _ rfl rfl ?_
      rintro _ _ _ ⟨⟩
      exact of_decide_eq_true heq
    next => exact .advance rfl

/-- A next state of `exec` comes from one of the effects. -/
theorem Effect.of_exec {i : Instr} {s t : State} (h : exec i s = .next t) : Effect i s t := by
  obtain ⟨u, hu, he⟩ := exec_effect i s
  rw [hu] at h
  cases h
  exact he

/-- A next state of `step` is an effect of the fetched instruction with register 0 forced to 0 (70 R172). -/
theorem Effect.of_step {s t : State} (h : step s = .next t) : ∃ u, Effect s.fetchInstr s u ∧ t = u.forceZero := by
  obtain ⟨-, u, hu, rfl⟩ := step_eq_next h
  exact ⟨u, .of_exec hu, rfl⟩

/-- A state with the same stored registers keeps every register, whatever the destination. -/
theorem RegsKept.of_regs_eq {s t : State} (h : t.regs = s.regs) (dest : Option RegNo) : RegsKept s t dest := by
  intro r _
  rw [h]

/-- Every effect keeps all registers but the instruction's destination (10 R23). -/
theorem Effect.regsKept {i : Instr} {s t : State} (h : Effect i s t) : RegsKept s t i.dest := by
  cases h with
  | alu op d a b hdest => exact hdest ▸ .of_writeReg (s.aluWrite_regs op d a b)
  | advance | jump | halt | store => exact .of_regs_eq rfl _
  | link imm13 hi => exact hi ▸ .of_writeReg (State.setPc_regs _ _)
  | load rt rs imm hi =>
    subst hi
    exact .of_writeReg (v := s.memRead (s.effAddr rs imm)) (by simp)

/-- Every effect goes to pc + 1 but that of a control transfer other than an untaken jeq (10 R24). -/
theorem Effect.pc {i : Instr} {s t : State} (h : Effect i s t) : t.pc = s.pc + 1 ∨
    i.transfersControl = true ∧ ∀ rs rt imm, i = .jeq rs rt imm → s.readReg rs = s.readReg rt := by
  cases h with
  | alu op d a b => exact .inl (s.aluWrite_pc op d a b)
  | advance => exact .inl rfl
  | jump _ _ hctl hjeq => exact .inr ⟨hctl, hjeq⟩
  | halt imm13 hi => exact hi ▸ .inr ⟨rfl, nofun⟩
  | link imm13 hi => exact hi ▸ .inr ⟨rfl, nofun⟩
  | load => exact .inl (by simp)
  | store => exact .inl rfl

/-- Every effect leaves memory alone or stores one Word. -/
theorem Effect.mem {i : Instr} {s t : State} (h : Effect i s t) :
    t.mem = s.mem ∨ ∃ a v, t.mem = s.mem.setWord a v := by
  cases h with
  | store rt rs imm => exact .inr ⟨s.effAddr rs imm, s.readReg rt, rfl⟩
  | alu | advance | jump | halt | link | load => exact .inl (by simp)

/-- Every effect leaves cache and trace alone, or is that of an lw or sw and makes one cache access with the
instruction's pc and effective address (20 R57, R66). -/
theorem Effect.cache_trace {i : Instr} {s t : State} (h : Effect i s t) :
    (i.accessesData = false ∧ t.cache = s.cache ∧ t.trace = s.trace) ∨
      ∃ rt rs imm st, (i = .lw rt rs imm ∨ i = .sw rt rs imm) ∧
        t.cache = (cacheAccess s.cache (s.effAddr rs imm) s.pc st).1 ∧
        t.trace = s.trace ++ (cacheAccess s.cache (s.effAddr rs imm) s.pc st).2 := by
  cases h with
  | alu _ _ _ _ _ hdata => exact .inl ⟨hdata, by simp, by simp⟩
  | advance hdata => exact .inl ⟨hdata, rfl, rfl⟩
  | jump _ hdata => exact .inl ⟨hdata, rfl, rfl⟩
  | halt imm13 hi => exact .inl ⟨hi ▸ rfl, rfl, rfl⟩
  | link imm13 hi => exact .inl ⟨hi ▸ rfl, by simp, by simp⟩
  | load rt rs imm hi => exact .inr ⟨rt, rs, imm, false, .inl hi, by simp, by simp⟩
  | store rt rs imm hi => exact .inr ⟨rt, rs, imm, true, .inr hi, rfl, rfl⟩

/-- The effective address by plain arithmetic: the wrap at 2^16 is lost in the one at 8192 (42 R140; 20 R50). -/
theorem State.toNat_effAddr (s : State) (rs : RegNo) (imm : Word) :
    (s.effAddr rs imm).toNat = ((s.readReg rs).toNat + imm.toNat) % 8192 := by
  simp only [State.effAddr, BitVec.toNat_setWidth, BitVec.toNat_add]
  omega

end Sys2Proof.Machine
end

section
/-! SUPPORT. What one cache access can do: the levels it leaves and the events it emits (20 R65 to R68; 10 R34). -/

namespace Sys2Proof.Machine

/-- A cache access visits no level, the first level, or both levels of a hierarchy of two (20 R65, R67). -/
theorem cacheAccess_cases (cache : List Level) (a : Addr) (pc : Word) (st : Bool) :
    (cache = [] ∧ cacheAccess cache a pc st = ([], [])) ∨
    (∃ l1 rest, cache = l1 :: rest ∧
      cacheAccess cache a pc st = ((levelVisit l1 a pc st).level :: rest, [(levelVisit l1 a pc st).event])) ∨
    ∃ l1 l2, cache = [l1, l2] ∧
      cacheAccess cache a pc st = ([(levelVisit l1 a pc st).level, (levelVisit l2 a pc st).level],
        [(levelVisit l1 a pc st).event, (levelVisit l2 a pc st).event]) := by
  match cache with
  | [] => exact .inl ⟨rfl, rfl⟩
  | [l1] => exact .inr (.inl ⟨l1, [], rfl, rfl⟩)
  | [l1, l2] =>
    by_cases hboth : (st || !(levelVisit l1 a pc st).found) = true
    · exact .inr (.inr ⟨l1, l2, rfl, if_pos hboth⟩)
    · exact .inr (.inl ⟨l1, [l2], rfl, if_neg hboth⟩)
  | l1 :: l2 :: l3 :: rest => exact .inr (.inl ⟨l1, l2 :: l3 :: rest, rfl, rfl⟩)

/-- A visit keeps the structure of its level (10 R30). -/
@[simp] theorem levelShape_levelVisit (l : Level) (a : Addr) (pc : Word) (st : Bool) :
    levelShape (levelVisit l a pc st).level = levelShape l := by
  simp [levelShape, levelVisit]

/-- A cache access keeps the structure of the hierarchy (10 R30). -/
theorem cacheAccess_shape (cache : List Level) (a : Addr) (pc : Word) (st : Bool) :
    (cacheAccess cache a pc st).1.map levelShape = cache.map levelShape := by
  obtain ⟨rfl, h⟩ | ⟨l1, rest, rfl, h⟩ | ⟨l1, l2, rfl, h⟩ := cacheAccess_cases cache a pc st <;> simp [h]

/-- A cache access emits at most two events (20 R66). -/
theorem cacheAccess_events_length_le (cache : List Level) (a : Addr) (pc : Word) (st : Bool) :
    (cacheAccess cache a pc st).2.length ≤ 2 := by
  obtain ⟨rfl, h⟩ | ⟨l1, rest, rfl, h⟩ | ⟨l1, l2, rfl, h⟩ := cacheAccess_cases cache a pc st <;> simp [h]

/-- Every event of a cache access is that of a visit to a level of the hierarchy (20 R66). -/
theorem exists_visit_of_mem_cacheAccess {cache : List Level} {a : Addr} {pc : Word} {st : Bool} {e : CacheEvent}
    (he : e ∈ (cacheAccess cache a pc st).2) : ∃ l ∈ cache, e = (levelVisit l a pc st).event := by
  obtain ⟨rfl, h⟩ | ⟨l1, rest, rfl, h⟩ | ⟨l1, l2, rfl, h⟩ := cacheAccess_cases cache a pc st <;>
    simp_all

/-- Every level of a well-formed hierarchy is well formed under its name. -/
theorem levelWf_of_cacheWf {cache : List Level} (h : cacheWf cache = true) {l : Level} (hl : l ∈ cache) :
    ∃ name, LevelWf name l := by
  match cache, h with
  | [l1], h =>
    obtain rfl := List.mem_singleton.1 hl
    exact ⟨.L1, of_decide_eq_true h⟩
  | [l1, l2], h =>
    obtain ⟨h1, h2⟩ := Bool.and_eq_true_iff.1 h
    obtain rfl | hl := List.mem_cons.1 hl
    · exact ⟨.L1, of_decide_eq_true h1⟩
    · obtain rfl := List.mem_singleton.1 hl
      exact ⟨.L2, of_decide_eq_true h2⟩

/-- A hierarchy stays well formed when its first level becomes another one well formed as L1. -/
theorem cacheWf_cons_of_levelWf {l l' : Level} {rest : List Level} (h : cacheWf (l :: rest) = true)
    (hl' : LevelWf .L1 l → LevelWf .L1 l') : cacheWf (l' :: rest) = true := by
  match rest, h with
  | [], h => exact decide_eq_true (hl' (of_decide_eq_true h))
  | [l2], h =>
    obtain ⟨h1, h2⟩ := Bool.and_eq_true_iff.1 h
    exact Bool.and_eq_true_iff.2 ⟨decide_eq_true (hl' (of_decide_eq_true h1)), h2⟩

/-- A cache access keeps the hierarchy well formed (20 R68). -/
theorem cacheWf_cacheAccess {cache : List Level} (h : cacheWf cache = true) (a : Addr) (pc : Word) (st : Bool) :
    cacheWf (cacheAccess cache a pc st).1 = true := by
  obtain ⟨rfl, hc⟩ | ⟨l1, rest, rfl, hc⟩ | ⟨l1, l2, rfl, hc⟩ := cacheAccess_cases cache a pc st <;> rw [hc]
  · rfl
  · exact cacheWf_cons_of_levelWf h fun h1 => h1.visit a pc st
  · obtain ⟨h1, h2⟩ := Bool.and_eq_true_iff.1 h
    exact Bool.and_eq_true_iff.2 ⟨decide_eq_true ((of_decide_eq_true h1 : LevelWf _ _).visit a pc st),
      decide_eq_true ((of_decide_eq_true h2 : LevelWf _ _).visit a pc st)⟩

/-- Whether a trace is well formed depends on the structure of the hierarchy alone. -/
theorem TraceWf.of_shape {c c' : List Level} {trace : List CacheEvent} (h : TraceWf c trace)
    (hc : c'.map levelShape = c.map levelShape) : TraceWf c' trace := by
  intro e he
  obtain ⟨l, hl, hname, hrow⟩ := h e he
  obtain ⟨l', hl', hshape⟩ := List.mem_map.1 (hc ▸ List.mem_map_of_mem (f := levelShape) hl)
  simp only [levelShape, Prod.mk.injEq] at hshape
  obtain ⟨hname', -, -, hrows', -⟩ := hshape
  exact ⟨l', hl', hname'.trans hname, hrows' ▸ hrow⟩

/-- The events of an access to a well-formed hierarchy name a level of it and one of that level's rows (10 R34). -/
theorem traceWf_cacheAccess {cache : List Level} (h : cacheWf cache = true) (a : Addr) (pc : Word) (st : Bool) :
    TraceWf cache (cacheAccess cache a pc st).2 := by
  intro e he
  obtain ⟨l, hl, rfl⟩ := exists_visit_of_mem_cacheAccess he
  obtain ⟨_, _, _, _, hrows, _⟩ := levelWf_of_cacheWf h hl
  exact ⟨l, hl, rfl, (decompose_spec a l.blocksize hrows).1⟩

/-- A trace is well formed when both its parts are. -/
theorem TraceWf.append {cache : List Level} {old new : List CacheEvent} (hold : TraceWf cache old)
    (hnew : TraceWf cache new) : TraceWf cache (old ++ new) := by
  intro e he
  exact (List.mem_append.1 he).elim (hold e) (hnew e)

end Sys2Proof.Machine
end

section
/-! SUPPORT. States that differ only in cache and trace stay so under every operation (10 R33; 20 R56). -/

namespace Sys2Proof.Machine

section
variable {s t : State} (h : s.ProgramEq t)
include h

theorem State.ProgramEq.readReg (r : RegNo) : s.readReg r = t.readReg r := by
  obtain ⟨-, hregs, -, -⟩ := h
  exact State.readReg_congr hregs r

theorem State.ProgramEq.effAddr (rs : RegNo) (imm : Word) : s.effAddr rs imm = t.effAddr rs imm := by
  rw [State.effAddr, State.effAddr, h.readReg]

theorem State.ProgramEq.memRead (a : Addr) : s.memRead a = t.memRead a := by
  obtain ⟨-, -, hmem, -⟩ := h
  rw [State.memRead, State.memRead, hmem]

theorem State.ProgramEq.fetchInstr : s.fetchInstr = t.fetchInstr := by
  obtain ⟨hpc, -, -, -⟩ := id h
  rw [State.fetchInstr, State.fetchInstr, State.fetchWord, State.fetchWord, hpc, h.memRead]

theorem State.ProgramEq.setPc {p q : Word} (e : p = q) : (s.setPc p).ProgramEq (t.setPc q) := by
  obtain ⟨-, hregs, hmem, hhalted⟩ := h
  exact ⟨e, hregs, hmem, hhalted⟩

theorem State.ProgramEq.advance : s.advance.ProgramEq t.advance := by
  obtain ⟨hpc, -, -, -⟩ := id h
  exact h.setPc (by rw [hpc])

theorem State.ProgramEq.writeReg (r : RegNo) {v w : Word} (e : v = w) :
    (s.writeReg r v).ProgramEq (t.writeReg r w) := by
  obtain ⟨hpc, hregs, hmem, hhalted⟩ := h
  exact ⟨by simpa, by simp [hregs, e], by simpa, by simpa⟩

theorem State.ProgramEq.memWrite {a b : Addr} (ea : a = b) {v w : Word} (ev : v = w) :
    (s.memWrite a v).ProgramEq (t.memWrite b w) := by
  obtain ⟨hpc, hregs, hmem, hhalted⟩ := h
  exact ⟨hpc, hregs, by simp [hmem, ea, ev], hhalted⟩

theorem State.ProgramEq.aluWrite (op : AluOp) (d : RegNo) {a a' b b' : Word} (ea : a = a') (eb : b = b') :
    (s.aluWrite op d a b).ProgramEq (t.aluWrite op d a' b') :=
  (h.writeReg d (by rw [ea, eb])).advance

/-- The access itself: its address may even differ. -/
theorem State.ProgramEq.accessCache (a b : Addr) (st : Bool) :
    (s.accessCache a st).ProgramEq (t.accessCache b st) := h

theorem State.ProgramEq.halt : s.halt.ProgramEq t.halt := by
  obtain ⟨hpc, hregs, hmem, -⟩ := h
  exact ⟨hpc, hregs, hmem, rfl⟩

theorem State.ProgramEq.forceZero : s.forceZero.ProgramEq t.forceZero := by
  obtain ⟨hpc, hregs, hmem, hhalted⟩ := h
  exact ⟨hpc, by simp [hregs], hmem, hhalted⟩

/-- An instruction takes states that differ only in cache and trace to such states. -/
theorem State.ProgramEq.exec (i : Instr) :
    ∃ s' t', exec i s = .next s' ∧ exec i t = .next t' ∧ s'.ProgramEq t' := by
  obtain ⟨hpc, -, -, -⟩ := id h
  cases i with
  | add d a b | sub d a b | or d a b | and d a b | slt d a b =>
    exact ⟨_, _, rfl, rfl, h.aluWrite _ d (h.readReg a) (h.readReg b)⟩
  | addi d a imm | slti d a imm => exact ⟨_, _, rfl, rfl, h.aluWrite _ d (h.readReg a) rfl⟩
  | nopFunct5 | nopFunct6 | nopFunct7 | nopFunct9 | nopFunct10 | nopFunct11 | nopFunct12 | nopFunct13
  | nopFunct14 | nopFunct15 => exact ⟨_, _, rfl, rfl, h.advance⟩
  | jr rs => exact ⟨_, _, rfl, rfl, h.setPc (h.readReg rs)⟩
  | j imm13 =>
    refine ⟨_, _, exec_j imm13 s, exec_j imm13 t, ?_⟩
    rw [hpc]
    split
    · exact h.halt
    · exact h.setPc rfl
  | jal imm13 =>
    have hlink : s.linkValue = t.linkValue := by rw [State.linkValue, State.linkValue, hpc]
    exact ⟨_, _, rfl, rfl, (h.writeReg linkReg hlink).setPc rfl⟩
  | lw rt rs imm =>
    have hloaded : s.memRead (s.effAddr rs imm) = t.memRead (t.effAddr rs imm) := by
      rw [h.memRead, h.effAddr]
    exact ⟨_, _, rfl, rfl, ((h.accessCache _ _ false).writeReg rt hloaded).advance⟩
  | sw rt rs imm =>
    exact ⟨_, _, rfl, rfl, ((h.accessCache _ _ true).memWrite (h.effAddr rs imm) (h.readReg rt)).advance⟩
  | jeq rs rt imm =>
    refine ⟨_, _, exec_jeq rs rt imm s, exec_jeq rs rt imm t, ?_⟩
    rw [h.readReg rs, h.readReg rt]
    split
    · exact h.setPc (by rw [State.branchTarget, State.branchTarget, hpc])
    · exact h.advance

end

/-- A running machine's step, from the next state of the fetched instruction (70 R172). -/
theorem step_of_exec {s u : State} (hrun : s.halted = false) (hu : exec s.fetchInstr s = .next u) :
    step s = .next u.forceZero := by
  simp [step, hrun, hu, endStep]

/-- States that differ only in cache and trace step alike: both are halted, or both step to such states. -/
theorem State.ProgramEq.step {s t : State} (h : s.ProgramEq t) :
    (step s = .fault .halted ∧ step t = .fault .halted) ∨
      ∃ s' t', step s = .next s' ∧ step t = .next t' ∧ s'.ProgramEq t' := by
  obtain ⟨-, -, -, hhalted⟩ := id h
  by_cases hrun : s.halted = true
  · exact .inl ⟨if_pos hrun, if_pos (hhalted ▸ hrun)⟩
  · have hrun : s.halted = false := by simpa using hrun
    obtain ⟨s', t', hs, ht, h'⟩ := h.exec s.fetchInstr
    exact .inr ⟨_, _, step_of_exec hrun hs, step_of_exec (hhalted ▸ hrun) (h.fetchInstr ▸ ht), h'.forceZero⟩

/-- A run whose first step answers a next state goes on from it. -/
theorem run_succ_of_next {s s' : State} (h : step s = .next s') (k : Nat) :
    Sys2Proof.core.run (k + 1) s = Sys2Proof.core.run k s' := by
  have hcore : Sys2Proof.core.step s = .next s' := h
  simp only [Host.Core.run, hcore]

/-- A run whose first step is a fault ends with it. -/
theorem run_succ_of_fault {s : State} {f : Fault} (h : step s = .fault f) (k : Nat) :
    Sys2Proof.core.run (k + 1) s = .fault f := by
  have hcore : Sys2Proof.core.step s = .fault f := h
  simp only [Host.Core.run, hcore]

end Sys2Proof.Machine
end

section
/-! The statements about the whole state: its invariant, its frames, and what a program can observe (10_state.md). -/

namespace Sys2Proof.Machine

/-- Settles O42: an effect stores at most one Word and makes at most one cache access, each of which keeps its part of
the invariant, and the end of the step forces register 0. -/
theorem everyStepKeepsTheInvariant : Obligations.EveryStepKeepsTheInvariant := by
  unfold Obligations.EveryStepKeepsTheInvariant
  rintro s t ⟨-, hmem, hcache, htrace⟩ h
  obtain ⟨u, heff, rfl⟩ := Effect.of_step h
  have hmem' : u.mem.wf := by
    obtain he | ⟨a, v, he⟩ := heff.mem <;> rw [he]
    · exact hmem
    · exact Memory.wf_setWord hmem a v
  have hcache' : cacheWf u.cache = true ∧ TraceWf u.cache u.trace := by
    obtain ⟨-, hc, ht⟩ | ⟨rt, rs, imm, st, -, hc, ht⟩ := heff.cache_trace <;> rw [hc, ht]
    · exact ⟨hcache, htrace⟩
    · exact ⟨cacheWf_cacheAccess hcache _ _ _,
        (htrace.append (traceWf_cacheAccess hcache _ _ _)).of_shape (cacheAccess_shape _ _ _ _)⟩
  exact ⟨by simp, hmem', hcache'⟩

/-- Settles O43, by induction on the number of steps from any two states that agree. -/
theorem programCannotObserveTheCache : Obligations.ProgramCannotObserveTheCache := by
  unfold Obligations.ProgramCannotObserveTheCache
  intro k
  induction k with
  | zero => exact fun s t h => h
  | succ k ih =>
    intro s t h
    obtain ⟨hs, ht⟩ | ⟨s', t', hs, ht, h'⟩ := h.step
    · rw [run_succ_of_fault hs, run_succ_of_fault ht]
      rfl
    · rw [run_succ_of_next hs, run_succ_of_next ht]
      exact ih s' t' h'

/-- Settles O24: each effect writes at most the register the table of R23 names. -/
theorem onlyTheDestinationRegisterChanges : Obligations.OnlyTheDestinationRegisterChanges := by
  unfold Obligations.OnlyTheDestinationRegisterChanges
  exact fun i s t h => (Effect.of_exec h).regsKept

/-- Settles O25: the effects that go elsewhere are those of control transfers, and of a jeq only when taken. -/
theorem otherInstructionsGoToPcPlusOne : Obligations.OtherInstructionsGoToPcPlusOne := by
  unfold Obligations.OtherInstructionsGoToPcPlusOne
  intro i s t h hother
  obtain hpc | ⟨hctl, hjeq⟩ := (Effect.of_exec h).pc
  · rw [hpc, BitVec.toNat_add]
    rfl
  · obtain hnot | ⟨rs, rt, imm, hi, hne⟩ := hother
    · exact absurd hctl (by simp [hnot])
    · exact absurd (hjeq rs rt imm hi) hne

/-- Settles O39: the only operation on the hierarchy is the cache access, which keeps its structure. -/
theorem cacheStructureNeverChanges : Obligations.CacheStructureNeverChanges := by
  unfold Obligations.CacheStructureNeverChanges
  intro s t h
  obtain ⟨u, heff, rfl⟩ := Effect.of_step h
  rw [State.forceZero_cache]
  obtain ⟨-, hc, -⟩ | ⟨rt, rs, imm, st, -, hc, -⟩ := heff.cache_trace <;> rw [hc]
  exact cacheAccess_shape _ _ _ _

/-- Settles O40: the events are those of the one cache access of an lw or sw, each made by a visit with its pc and
address. -/
theorem traceOnlyGrowsByThisStepsEvents : Obligations.TraceOnlyGrowsByThisStepsEvents := by
  unfold Obligations.TraceOnlyGrowsByThisStepsEvents
  intro s t h
  obtain ⟨u, heff, rfl⟩ := Effect.of_step h
  obtain ⟨-, -, ht⟩ | ⟨rt, rs, imm, st, hi, -, ht⟩ := heff.cache_trace
  · exact ⟨[], by simp [ht], by simp, by simp⟩
  · refine ⟨_, ht, cacheAccess_events_length_le _ _ _ _, fun e he => ?_⟩
    obtain ⟨l, -, rfl⟩ := exists_visit_of_mem_cacheAccess he
    exact ⟨rfl, rt, rs, imm, hi, s.toNat_effAddr rs imm⟩

end Sys2Proof.Machine
end

section
/-! SUPPORT. The LRU row as a function of the accesses: one row update is one more access (20 R64, R68 item 4). -/

namespace Sys2Proof.Machine

/-- The last `n` elements of `p ++ q` lie in `q` when `q` has that many. -/
theorem rtake_append_of_le_length {α : Type} (p : List α) {q : List α} {n : Nat} (h : n ≤ q.length) :
    (p ++ q).rtake n = q.rtake n := by
  have hdrop : p.length + q.length - n = p.length + (q.length - n) := by omega
  rw [List.rtake, List.rtake, List.length_append, hdrop, List.drop_length_add_append]

/-- The last `n` elements of `p ++ q` are all of `q` and as many of `p` as are left. -/
theorem rtake_append_of_length_le {α : Type} (p : List α) {q : List α} {n : Nat} (h : q.length ≤ n) :
    (p ++ q).rtake n = p.rtake (n - q.length) ++ q := by
  have hdrop : p.length + q.length - n = p.length - (n - q.length) := by omega
  rw [List.rtake, List.rtake, List.length_append, hdrop, List.drop_append_of_le_length (Nat.sub_le _ _)]

/-- One access more: its tag leaves its place and becomes the last (20 R64). -/
theorem dedup_append_singleton (tags : List Nat) (t : Nat) :
    (tags ++ [t]).dedup = tags.dedup.erase t ++ [t] := by
  induction tags with
  | nil => simp
  | cons u us ih =>
    by_cases hu : u ∈ us
    · rw [List.cons_append, List.dedup_cons_of_mem (by simp [hu]), List.dedup_cons_of_mem hu, ih]
    · by_cases hut : u = t
      · subst hut
        rw [List.cons_append, List.dedup_cons_of_mem (by simp), List.dedup_cons_of_notMem hu, ih,
          List.erase_cons_head, List.erase_of_not_mem (by simpa using hu)]
      · rw [List.cons_append, List.dedup_cons_of_notMem (by simp [hu, hut]), List.dedup_cons_of_notMem hu, ih,
          List.erase_cons_tail (by simpa using hut), List.cons_append]

/-- A tag that is new to the last `k + 1` of a list is appended, and the first of them goes if there are `k + 1`. -/
theorem tagsUpdate_rtake_of_notMem {ts : List Nat} {t : Nat} (ht : t ∉ ts) (k : Nat) :
    tagsUpdate (k + 1) (ts.rtake (k + 1)) t = ts.rtake k ++ [t] := by
  have hkept : t ∉ ts.rtake (k + 1) := fun h => ht (List.mem_of_mem_drop h)
  rw [tagsUpdate, if_neg hkept]
  by_cases hroom : ts.length ≤ k
  · have hall (n : Nat) (hn : ts.length ≤ n) : ts.rtake n = ts := by
      rw [List.rtake, Nat.sub_eq_zero_of_le hn, List.drop_zero]
    rw [hall _ hroom, hall _ (by omega), if_pos (by omega)]
  · have hfull : ¬ (ts.rtake (k + 1)).length < k + 1 := by
      rw [List.rtake, List.length_drop]
      omega
    have hnext : ts.length - (k + 1) + 1 = ts.length - k := by omega
    rw [if_neg hfull, List.rtake, List.drop_drop, hnext, List.rtake]

/-- Updating the last `k + 1` of a list of distinct tags is keeping the last `k + 1` of the list in which the tag has
become the last: whether the tag is new, among the tags kept, or one that was evicted before. -/
theorem tagsUpdate_rtake {ts : List Nat} (hn : ts.Nodup) (k t : Nat) :
    tagsUpdate (k + 1) (ts.rtake (k + 1)) t = (ts.erase t ++ [t]).rtake (k + 1) := by
  rw [List.rtake_concat_succ]
  by_cases ht : t ∈ ts
  · obtain ⟨p, q, rfl⟩ := List.append_of_mem ht
    obtain ⟨hp, hq⟩ : t ∉ p ∧ t ∉ q := by
      simp only [List.nodup_middle, List.nodup_cons, List.mem_append, not_or] at hn
      exact hn.1
    rw [List.erase_append_right _ hp, List.erase_cons_head]
    by_cases hk : q.length ≤ k
    · have hp' : t ∉ p.rtake (k - q.length) := fun h => hp (List.mem_of_mem_drop h)
      have hlen : k + 1 - (t :: q).length = k - q.length := by
        rw [List.length_cons]
        omega
      rw [rtake_append_of_length_le p (by simpa using hk), rtake_append_of_length_le p hk, hlen, tagsUpdate,
        if_pos (by simp), List.erase_append_right _ hp', List.erase_cons_head]
    · rw [List.append_cons, rtake_append_of_le_length _ (by omega), rtake_append_of_le_length _ (by omega),
        tagsUpdate_rtake_of_notMem hq]
  · rw [List.erase_of_not_mem ht, tagsUpdate_rtake_of_notMem ht]

/-- The row of the accesses, in the form of 20 R68. -/
theorem lruRow_eq_rtake (assoc : Nat) (tags : List Nat) :
    lruRow assoc tags = List.replicate (assoc - (tags.dedup.rtake assoc).length) Block.empty ++
      (tags.dedup.rtake assoc).map Block.valid := by
  have hlen : assoc - (tags.dedup.rtake assoc).length = assoc - tags.dedup.length := by
    rw [List.rtake, List.length_drop]
    omega
  rw [hlen, lruRow, List.rtake]

/-- An LRU row updated with a tag is the LRU row of the accesses followed by that tag's (20 R64). -/
theorem rowUpdate_lruRow {assoc : Nat} (ha : 1 ≤ assoc) (tags : List Nat) (t : Nat) :
    rowUpdate (lruRow assoc tags) t = lruRow assoc (tags ++ [t]) := by
  have hfit : (tags.dedup.rtake assoc).length ≤ assoc := by
    rw [List.rtake, List.length_drop]
    omega
  obtain ⟨k, rfl⟩ : ∃ k, assoc = k + 1 := ⟨assoc - 1, by omega⟩
  rw [lruRow_eq_rtake, rowUpdate_form ha hfit, tagsUpdate_rtake (List.nodup_dedup tags),
    ← dedup_append_singleton, ← lruRow_eq_rtake]

/-- With no access the row is the empty blocks. -/
@[simp] theorem lruRow_nil (assoc : Nat) : lruRow assoc [] = List.replicate assoc .empty := by
  simp [lruRow]

end Sys2Proof.Machine
end

section
/-! SUPPORT. One visit of a level, by its row and tag: the lookup, the row it leaves, its event (20 R59, R62 to R64). -/

namespace Sys2Proof.Machine

/-- The row of an address in a level's geometry (20 R59). -/
def Level.rowOf (l : Level) (a : Addr) : Nat := (decompose a l.blocksize l.rows).1

/-- The tag of an address in a level's geometry (20 R59). -/
def Level.tagOf (l : Level) (a : Addr) : Nat := (decompose a l.blocksize l.rows).2

/-- A row update with a tag that is found moves its first block to the end (20 R64). -/
theorem rowUpdate_of_first {p : Row} {t : Nat} (hp : Block.valid t ∉ p) (q : Row) :
    rowUpdate (p ++ .valid t :: q) t = p ++ q ++ [.valid t] := by
  simp [rowUpdate, rowFound, List.erase_append_right _ hp]

/-- A row update with a tag that is not found evicts the front block (20 R64). -/
theorem rowUpdate_of_notMem {row : Row} {t : Nat} (h : Block.valid t ∉ row) :
    rowUpdate row t = row.tail ++ [.valid t] := by
  simp [rowUpdate, rowFound, h]

/-- A row update leaves its tag most recently used (20 R64). -/
theorem getLast?_rowUpdate (row : Row) (t : Nat) : (rowUpdate row t).getLast? = some (.valid t) :=
  List.getLast?_concat

/-- A load's outcome is HIT iff the tag was found (20 R63). -/
theorem visitOutcome_load_eq_hit_iff (found : Bool) : visitOutcome false found = .hit ↔ found = true := by
  cases found <;> decide

/-- A load's outcome is MISS iff the tag was not found (20 R63). -/
theorem visitOutcome_load_eq_miss_iff (found : Bool) : visitOutcome false found = .miss ↔ found = false := by
  cases found <;> decide

/-- In a row without repeats, an update with the tag just used changes nothing. -/
theorem rowUpdate_rowUpdate {row : Row} {t : Nat} (hn : (rowTags (rowUpdate row t)).Nodup) :
    rowUpdate (rowUpdate row t) t = rowUpdate row t := by
  obtain ⟨p, hp⟩ : ∃ p, rowUpdate row t = p ++ [.valid t] := ⟨_, rfl⟩
  have hlast : rowTags [.valid t] = [t] := rfl
  rw [hp, rowTags_append, hlast, ← List.concat_eq_append, List.nodup_concat, mem_rowTags] at hn
  rw [hp, rowUpdate_of_first hn.1, List.append_nil]

section
variable (l : Level) (a : Addr) (pc : Word) (st : Bool)

/-- A visit changes its level's rows only (20 R64). -/
theorem levelVisit_level : (levelVisit l a pc st).level =
    { l with sets := l.sets.set (l.rowOf a) (rowUpdate (l.sets.getD (l.rowOf a) []) (l.tagOf a)) } := rfl

/-- The one event of a visit (20 R63). -/
theorem levelVisit_event : (levelVisit l a pc st).event =
    ⟨l.name, visitOutcome st (levelVisit l a pc st).found, pc, a, l.rowOf a⟩ := rfl

/-- A visit finds the tag iff the row holds it (20 R62). -/
theorem levelVisit_found_iff :
    (levelVisit l a pc st).found = true ↔ Block.valid (l.tagOf a) ∈ l.sets.getD (l.rowOf a) [] :=
  decide_eq_true_iff

/-- A load's visit is a HIT iff it finds the tag (20 R63). -/
theorem levelVisit_outcome_eq_hit_iff :
    (levelVisit l a pc false).event.outcome = .hit ↔ (levelVisit l a pc false).found = true :=
  visitOutcome_load_eq_hit_iff _

/-- A load's visit is a MISS iff it does not find the tag (20 R63). -/
theorem levelVisit_outcome_eq_miss_iff :
    (levelVisit l a pc false).event.outcome = .miss ↔ (levelVisit l a pc false).found = false :=
  visitOutcome_load_eq_miss_iff _

variable {l a}

/-- A visit leaves every row but that of the address as it was (20 R64). -/
theorem levelVisit_getElem?_ne {r : Nat} (hr : r ≠ l.rowOf a) :
    (levelVisit l a pc st).level.sets[r]? = l.sets[r]? := by
  rw [levelVisit_level, List.getElem?_set_ne hr.symm]

variable {row : Row} (hrow : l.sets[l.rowOf a]? = some row)
include hrow

/-- A row that exists is the one a visit looks at. -/
theorem Level.getD_rowOf : l.sets.getD (l.rowOf a) [] = row := by
  rw [List.getD_eq_getElem?_getD, hrow, Option.getD_some]

/-- A visit updates the row of the address with its tag (20 R64). -/
theorem levelVisit_getElem?_self :
    (levelVisit l a pc st).level.sets[l.rowOf a]? = some (rowUpdate row (l.tagOf a)) := by
  obtain ⟨hlt, -⟩ := List.getElem?_eq_some_iff.1 hrow
  rw [levelVisit_level, List.getElem?_set_self hlt, Level.getD_rowOf hrow]

/-- A visit that does not reorder its row leaves the level as it is. -/
theorem levelVisit_level_eq_self (hsame : rowUpdate row (l.tagOf a) = row) : (levelVisit l a pc st).level = l := by
  obtain ⟨hlt, hget⟩ := List.getElem?_eq_some_iff.1 hrow
  have hset : l.sets.set (l.rowOf a) row = l.sets := by rw [← hget, List.set_getElem_self]
  rw [levelVisit_level, Level.getD_rowOf hrow, hsame, hset]

end

/-- In a well-formed level the row of an address exists and is well formed. -/
theorem LevelWf.exists_row {name : LevelName} {l : Level} (h : LevelWf name l) (a : Addr) :
    ∃ row, l.sets[l.rowOf a]? = some row ∧ RowWf l (l.rowOf a) row := by
  obtain ⟨-, -, -, hrows, hlen, hsets⟩ := h
  have hlt : l.rowOf a < l.rows := (decompose_spec a l.blocksize hrows).1
  have hget := List.getElem?_eq_getElem (hlen ▸ hlt)
  exact ⟨_, hget, Level.getD_rowOf hget ▸ hsets _ hlt⟩

end Sys2Proof.Machine
end

section
/-! SUPPORT. One access of the hierarchy, by the kind of access (20 R65, R69). -/

namespace Sys2Proof.Machine

/-- A well-formed hierarchy has L1 first, and any level behind it is L2 (10 R30). -/
theorem levelWf_of_cacheWf_cons {l1 : Level} {rest : List Level} (h : cacheWf (l1 :: rest) = true) :
    LevelWf .L1 l1 ∧ ∀ l ∈ rest, LevelWf .L2 l := by
  match rest, h with
  | [], h => exact ⟨of_decide_eq_true h, nofun⟩
  | [l2], h =>
    obtain ⟨h1, h2⟩ := Bool.and_eq_true_iff.1 h
    exact ⟨of_decide_eq_true h1, fun l hl => List.mem_singleton.1 hl ▸ of_decide_eq_true h2⟩

/-- The two levels of a hierarchy have different names (10 R30). -/
theorem LevelWf.name_ne {l1 l2 : Level} (h1 : LevelWf .L1 l1) (h2 : LevelWf .L2 l2) : l1.name ≠ l2.name := by
  obtain ⟨hname1, -⟩ := h1
  obtain ⟨hname2, -⟩ := h2
  rw [hname1, hname2]
  decide

/-- A store visits every level of a well-formed hierarchy (20 R65, R69). -/
theorem cacheAccess_store {cache : List Level} (h : cacheWf cache = true) (a : Addr) (pc : Word) :
    cacheAccess cache a pc true =
      (cache.map fun l => (levelVisit l a pc true).level, cache.map fun l => (levelVisit l a pc true).event) := by
  match cache, h with
  | [], _ => rfl
  | [_], _ => rfl
  | [_, _], _ => rfl

/-- A load that L1 finds leaves L2 alone (20 R65). -/
theorem cacheAccess_load_of_found {l1 : Level} {a : Addr} {pc : Word} (h : (levelVisit l1 a pc false).found = true)
    (l2 : Level) : cacheAccess [l1, l2] a pc false =
      ([(levelVisit l1 a pc false).level, l2], [(levelVisit l1 a pc false).event]) := by
  simp [cacheAccess, h]

/-- A load that L1 does not find goes on to L2 (20 R65). -/
theorem cacheAccess_load_of_not_found {l1 : Level} {a : Addr} {pc : Word}
    (h : (levelVisit l1 a pc false).found = false) (l2 : Level) : cacheAccess [l1, l2] a pc false =
      ([(levelVisit l1 a pc false).level, (levelVisit l2 a pc false).level],
        [(levelVisit l1 a pc false).event, (levelVisit l2 a pc false).event]) := by
  simp [cacheAccess, h]

end Sys2Proof.Machine
end

section
/-! SUPPORT. The LRU order of one level against the trace, under visits and under the events of others (20 R68 item 4). -/

namespace Sys2Proof.Machine

/-- Every row of the level is the LRU row of the accesses the trace records for it: `State.LruOrdered` of one level. -/
def LevelLru (trace : List CacheEvent) (l : Level) : Prop :=
  ∀ r < l.rows, l.sets.getD r [] = lruRow l.assoc (tracedTags trace l r)

theorem State.lruOrdered_iff (s : State) : s.LruOrdered ↔ ∀ l ∈ s.cache, LevelLru s.trace l := Iff.rfl

/-- The event of another level or row is no access to this one. -/
theorem tracedTags_concat_of_ne (trace : List CacheEvent) {l : Level} {r : Nat} {e : CacheEvent}
    (h : ¬(e.level = l.name ∧ e.rowIndex = r)) : tracedTags (trace ++ [e]) l r = tracedTags trace l r := by
  simp [tracedTags, List.filter_append, h]

/-- A visit's event records the access of its tag to its row. -/
theorem tracedTags_concat_visit (trace : List CacheEvent) (l : Level) (a : Addr) (pc : Word) (st : Bool) :
    tracedTags (trace ++ [(levelVisit l a pc st).event]) l (l.rowOf a) =
      tracedTags trace l (l.rowOf a) ++ [l.tagOf a] := by
  simp [tracedTags, List.filter_append, levelVisit_event, Level.tagOf, decompose]

/-- The recorded accesses depend on the level's geometry, which a visit keeps. -/
theorem tracedTags_levelVisit (trace : List CacheEvent) (l : Level) (a : Addr) (pc : Word) (st : Bool) (r : Nat) :
    tracedTags trace (levelVisit l a pc st).level r = tracedTags trace l r := rfl

/-- A level stays in LRU order when the trace gains the event of another level. -/
theorem LevelLru.concat_of_name_ne {trace : List CacheEvent} {l : Level} (h : LevelLru trace l) {e : CacheEvent}
    (he : e.level ≠ l.name) : LevelLru (trace ++ [e]) l := by
  intro r hr
  rw [tracedTags_concat_of_ne trace (fun ⟨hname, _⟩ => he hname)]
  exact h r hr

/-- A visited level stays in LRU order when the trace gains the visit's event. -/
theorem LevelLru.visit {trace : List CacheEvent} {l : Level} (h : LevelLru trace l) {name : LevelName}
    (hwf : LevelWf name l) (a : Addr) (pc : Word) (st : Bool) :
    LevelLru (trace ++ [(levelVisit l a pc st).event]) (levelVisit l a pc st).level := by
  obtain ⟨row, hrow, -⟩ := hwf.exists_row a
  obtain ⟨-, hassoc, -⟩ := hwf
  intro r hr
  rw [tracedTags_levelVisit, List.getD_eq_getElem?_getD, levelVisit_assoc]
  by_cases hra : r = l.rowOf a
  · subst hra
    have hlru : row = lruRow l.assoc (tracedTags trace l (l.rowOf a)) := Level.getD_rowOf hrow ▸ h _ hr
    rw [levelVisit_getElem?_self pc st hrow, Option.getD_some, tracedTags_concat_visit, hlru,
      rowUpdate_lruRow hassoc]
  · rw [levelVisit_getElem?_ne pc st hra, ← List.getD_eq_getElem?_getD,
      tracedTags_concat_of_ne trace (fun ⟨_, hrow'⟩ => hra hrow'.symm)]
    exact h r hr

/-- A cache access keeps every level of a well-formed hierarchy in LRU order: a level that is visited gains one access,
and the events are of the other level otherwise (20 R64, R66, R68 item 4). -/
theorem levelLru_cacheAccess {cache : List Level} (hwf : cacheWf cache = true) {trace : List CacheEvent}
    (h : ∀ l ∈ cache, LevelLru trace l) (a : Addr) (pc : Word) (st : Bool) :
    ∀ l ∈ (cacheAccess cache a pc st).1, LevelLru (trace ++ (cacheAccess cache a pc st).2) l := by
  obtain ⟨rfl, hc⟩ | ⟨l1, rest, rfl, hc⟩ | ⟨l1, l2, rfl, hc⟩ := cacheAccess_cases cache a pc st <;> rw [hc]
  · exact nofun
  · obtain ⟨hwf1, hwfrest⟩ := levelWf_of_cacheWf_cons hwf
    obtain ⟨h1, hrest⟩ := List.forall_mem_cons.1 h
    exact List.forall_mem_cons.2 ⟨h1.visit hwf1 a pc st,
      fun l hl => (hrest l hl).concat_of_name_ne (hwf1.name_ne (hwfrest l hl))⟩
  · obtain ⟨hwf1, hwfrest⟩ := levelWf_of_cacheWf_cons hwf
    have hwf2 := hwfrest l2 (List.mem_singleton_self l2)
    obtain ⟨h1, h2, -⟩ := by simpa only [List.forall_mem_cons] using h
    have hne := hwf1.name_ne hwf2
    rw [List.append_cons]
    simp only [List.forall_mem_cons]
    exact ⟨(h1.visit hwf1 a pc st).concat_of_name_ne hne.symm, (h2.concat_of_name_ne hne).visit hwf2 a pc st, nofun⟩

end Sys2Proof.Machine
end

section
/-! SUPPORT. The one Word an sw stores, with the instruction that stores it (20 R48; 42 R142). -/

namespace Sys2Proof.Machine

/-- Every effect leaves memory alone, or is that of an sw and stores one register at the effective address. -/
theorem Effect.mem_eq_or_sw {i : Instr} {s t : State} (h : Effect i s t) :
    t.mem = s.mem ∨ ∃ rt rs imm, i = .sw rt rs imm ∧ t.mem = s.mem.setWord (s.effAddr rs imm) (s.readReg rt) := by
  cases h with
  | store rt rs imm hi => exact .inr ⟨rt, rs, imm, hi, rfl⟩
  | alu | advance | jump | halt | link | load => exact .inl (by simp)

end Sys2Proof.Machine
end

section
/-! The statements about memory and the cache (20_memory.md). -/

namespace Sys2Proof.Machine

/-- Settles O49: a step makes at most one cache access, and an access keeps every level in LRU order. -/
theorem everyStepKeepsTheLruOrder : Obligations.EveryStepKeepsTheLruOrder := by
  unfold Obligations.EveryStepKeepsTheLruOrder
  rintro s t ⟨-, -, hcache, -⟩ hlru h
  obtain ⟨u, heff, rfl⟩ := Effect.of_step h
  rw [State.lruOrdered_iff, State.forceZero_cache, State.forceZero_trace]
  obtain ⟨-, hc, ht⟩ | ⟨rt, rs, imm, st, -, hc, ht⟩ := heff.cache_trace <;> rw [hc, ht]
  · exact hlru
  · exact levelLru_cacheAccess hcache hlru _ _ _

/-- Settles O23: the only effect on memory is the Word of an sw, and storing it leaves the cells of the others alone. -/
theorem memoryChangesOnlyWhereSwStores : Obligations.MemoryChangesOnlyWhereSwStores := by
  unfold Obligations.MemoryChangesOnlyWhereSwStores
  intro i s t h
  obtain hmem | ⟨rt, rs, imm, rfl, hmem⟩ := (Effect.of_exec h).mem_eq_or_sw
  · exact ⟨fun k hk => absurd (by rw [hmem]) hk, fun _ => hmem⟩
  · refine ⟨fun k hk => ⟨rt, rs, imm, rfl, ?_⟩, fun hother => absurd rfl (hother rt rs imm)⟩
    rw [← State.toNat_effAddr]
    by_contra hne
    exact hk (by rw [hmem, Memory.byteAt_setWord_ne _ _ hne])

/-- Settles O26: the effects that touch cache or trace are those of lw and sw. -/
theorem onlyLoadsAndStoresTouchTheCache : Obligations.OnlyLoadsAndStoresTouchTheCache := by
  unfold Obligations.OnlyLoadsAndStoresTouchTheCache
  intro s t h hdata
  obtain ⟨u, heff, rfl⟩ := Effect.of_step h
  obtain ⟨-, hc, ht⟩ | ⟨rt, rs, imm, st, hi | hi, -⟩ := heff.cache_trace
  · exact ⟨hc, ht⟩
  all_goals
    rw [hi] at hdata
    cases hdata

/-- Settles O32: division by rows, and the largest address. -/
theorem decomposeSplitsTheBlockId : Obligations.DecomposeSplitsTheBlockId := by
  unfold Obligations.DecomposeSplitsTheBlockId
  intro a blocksize rows _ hrows
  obtain ⟨hlt, hid⟩ := decompose_spec a blocksize hrows
  refine ⟨rfl, rfl, hlt, hid, ?_⟩
  calc a.toNat / blocksize / rows = a.toNat / (blocksize * rows) := Nat.div_div_eq_div_mul _ _ _
    _ ≤ 8191 / (blocksize * rows) := Nat.div_le_div_right (Nat.le_of_lt_succ a.isLt)

/-- Settles O33: the row of the address becomes its update, which moves the first block found or evicts the front. -/
theorem visitReordersTheRowByLru : Obligations.VisitReordersTheRowByLru := by
  unfold Obligations.VisitReordersTheRowByLru
  intro l a pc st _ _ r hrow htag hr
  obtain rfl : _ = l.rowOf a := hrow
  obtain rfl : _ = l.tagOf a := htag
  have hself := levelVisit_getElem?_self pc st hr
  refine ⟨?_, ?_, ?_, fun k hk => levelVisit_getElem?_ne pc st hk, levelShape_levelVisit l a pc st⟩
  · rw [levelVisit_found_iff, Level.getD_rowOf hr, List.mem_iff_getElem?]
  · rintro p q rfl hp
    rw [hself, rowUpdate_of_first hp]
  · intro hnot
    rw [hself, rowUpdate_of_notMem hnot]

/-- Settles O37: a store visits every level, and each visit leaves its tag at the end of its row. -/
theorem storeAllocatesInEveryLevel : Obligations.StoreAllocatesInEveryLevel := by
  unfold Obligations.StoreAllocatesInEveryLevel
  intro cache a pc hwf l hl
  rw [cacheAccess_store hwf] at hl
  obtain ⟨l0, hl0, rfl⟩ := List.mem_map.1 hl
  obtain ⟨name, hl0wf⟩ := levelWf_of_cacheWf hwf hl0
  obtain ⟨row, hrow, -⟩ := hl0wf.exists_row a
  have hvisited := Level.getD_rowOf (levelVisit_getElem?_self pc true hrow)
  exact hvisited ▸ getLast?_rowUpdate row (l0.tagOf a)

/-- Settles O38: the row just updated ends in the tag and holds it once, so updating it again changes nothing. -/
theorem loadAfterAccessHits : Obligations.LoadAfterAccessHits := by
  unfold Obligations.LoadAfterAccessHits
  intro name l a pc pc' st hwf
  obtain ⟨row, hrow, -⟩ := hwf.exists_row a
  have hrow' := levelVisit_getElem?_self pc st hrow
  obtain ⟨_, hget, -, hnodup, -⟩ := (hwf.visit a pc st).exists_row a
  obtain rfl := Option.some.inj (hrow'.symm.trans hget)
  constructor
  · rw [levelVisit_outcome_eq_hit_iff, levelVisit_found_iff, Level.getD_rowOf hget]
    exact List.mem_of_getLast? (getLast?_rowUpdate row (l.tagOf a))
  · exact levelVisit_level_eq_self pc' false hget (rowUpdate_rowUpdate hnodup)

/-- Settles O41, by induction on the accesses from the last one: the empty row is the LRU row of no access, and an update
is one access more. -/
theorem rowHoldsTheMostRecentTags : Obligations.RowHoldsTheMostRecentTags := by
  unfold Obligations.RowHoldsTheMostRecentTags
  intro assoc tags hassoc
  show tags.foldl rowUpdate (List.replicate assoc .empty) = lruRow assoc tags
  induction tags using List.reverseRecOn with
  | nil => rw [List.foldl_nil, lruRow_nil]
  | append_singleton tags t ih => rw [List.foldl_concat, ih, rowUpdate_lruRow hassoc]

/-- Settles O34: the event's outcome is the lookup's for a load, STORE for a store. -/
theorem visitEmitsItsOutcome : Obligations.VisitEmitsItsOutcome := by
  unfold Obligations.VisitEmitsItsOutcome
  intro l a pc _ _ hrow htag
  obtain rfl : _ = l.rowOf a := hrow
  obtain rfl : _ = l.tagOf a := htag
  refine ⟨rfl, fun hmem => ?_, fun hnot => ?_⟩
  · rw [levelVisit_event, (levelVisit_found_iff l a pc false).2 hmem]
    rfl
  · rw [levelVisit_event, Bool.eq_false_iff.2 (mt (levelVisit_found_iff l a pc false).1 hnot)]
    rfl

/-- Settles O35: a load's outcome in L1 says whether its tag was found, which decides whether L2 is visited. -/
theorem secondLevelIsVisitedOnStoreOrMiss : Obligations.SecondLevelIsVisitedOnStoreOrMiss := by
  unfold Obligations.SecondLevelIsVisitedOnStoreOrMiss
  intro l1 l2 a pc
  refine ⟨rfl, fun hhit => ?_, fun hmiss => ?_, fun _ => rfl⟩
  · exact cacheAccess_load_of_found ((levelVisit_outcome_eq_hit_iff l1 a pc).1 hhit) l2
  · exact cacheAccess_load_of_not_found ((levelVisit_outcome_eq_miss_iff l1 a pc).1 hmiss) l2

end Sys2Proof.Machine
end

section
/-! SUPPORT. The instruction word in fields: what a field is after `placeField`, the fields of each format's word, and
the immediates a word can hold (30_encoding.md R81 to R87, R95). -/

namespace Sys2Proof

/-- A placed field is read back from where it was placed. -/
@[simp] theorem extractLsb'_placeField_self {n lo : Nat} (v : BitVec n) (h : lo + n ≤ 16) :
    (placeField v lo).extractLsb' lo n = v := by
  apply BitVec.eq_of_getLsbD_eq
  intro i hi
  have hlt : lo + i < 16 := by omega
  simp [placeField, hi, hlt]

/-- A placed field leaves the bits beside it zero. -/
@[simp] theorem extractLsb'_placeField_disjoint {n lo start len : Nat} (v : BitVec n)
    (h : lo + n ≤ start ∨ start + len ≤ lo) :
    (placeField v lo).extractLsb' start len = 0 := by
  apply BitVec.eq_of_getLsbD_eq
  intro i hi
  obtain h | h := h
  · simp [placeField, BitVec.getLsbD_of_ge v (start + i - lo) (by omega)]
  · have hlt : start + i < lo := by omega
    simp [placeField, hlt]

/-- The mask of formats I and J keeps the op field and nothing else (30 R81, R89). -/
theorem and_opMask (w : Word) : w &&& 0xE000#16 = placeField (BitVec.ofFin (w := 3) (opField w)) 13 := by
  show w &&& 0xE000#16 = placeField (w.extractLsb' 13 3) 13
  apply BitVec.eq_of_getLsbD_eq
  intro i hi
  interval_cases i <;> simp [placeField]

/-- A word in the row of `op` under the mask of formats I and J has that op (30 R89). -/
theorem opField_of_and_opMask {w : Word} {op : BitVec 3} (h : w &&& 0xE000#16 = placeField op 13) :
    opField w = op.toFin := by
  have hop := congrArg (BitVec.extractLsb' 13 3) ((and_opMask w).symm.trans h)
  rw [extractLsb'_placeField_self _ (by decide), extractLsb'_placeField_self _ (by decide)] at hop
  exact congrArg BitVec.toFin hop

/-! The fields of a word of format R (30 R82). -/

@[simp] theorem opField_encodeR (rs rt rd : RegNo) (funct : BitVec 4) : opField (encodeR rs rt rd funct) = 0 :=
  (fields_of_masked_eq_funct (Laws.encodeR_masked rs rt rd funct)).1

@[simp] theorem functField_encodeR (rs rt rd : RegNo) (funct : BitVec 4) :
    functField (encodeR rs rt rd funct) = funct.toNat :=
  (fields_of_masked_eq_funct (Laws.encodeR_masked rs rt rd funct)).2

@[simp] theorem rsField_encodeR (rs rt rd : RegNo) (funct : BitVec 4) : rsField (encodeR rs rt rd funct) = rs := by
  simp [rsField, encodeR, BitVec.extractLsb'_or]

@[simp] theorem rtField_encodeR (rs rt rd : RegNo) (funct : BitVec 4) : rtField (encodeR rs rt rd funct) = rt := by
  simp [rtField, encodeR, BitVec.extractLsb'_or]

@[simp] theorem rdField_encodeR (rs rt rd : RegNo) (funct : BitVec 4) : rdField (encodeR rs rt rd funct) = rd := by
  simp [rdField, encodeR, BitVec.extractLsb'_or]

/-! The fields of a word of format I (30 R83). -/

@[simp] theorem opField_encodeI (op : BitVec 3) (rs rt : RegNo) (imm : Word) :
    opField (encodeI op rs rt imm) = op.toFin := opField_of_and_opMask (Laws.encodeI_masked op rs rt imm)

@[simp] theorem rsField_encodeI (op : BitVec 3) (rs rt : RegNo) (imm : Word) :
    rsField (encodeI op rs rt imm) = rs := by
  simp [rsField, encodeI, BitVec.extractLsb'_or]

@[simp] theorem rtField_encodeI (op : BitVec 3) (rs rt : RegNo) (imm : Word) :
    rtField (encodeI op rs rt imm) = rt := by
  simp [rtField, encodeI, BitVec.extractLsb'_or]

@[simp] theorem imm7Field_encodeI (op : BitVec 3) (rs rt : RegNo) (imm : Word) :
    imm7Field (encodeI op rs rt imm) = imm.setWidth 7 := by
  simp [imm7Field, encodeI, BitVec.extractLsb'_or]

/-! The fields of a word of format J (30 R84). -/

@[simp] theorem opField_encodeJ (op : BitVec 3) (imm13 : Addr) : opField (encodeJ op imm13) = op.toFin :=
  opField_of_and_opMask (Laws.encodeJ_masked op imm13)

@[simp] theorem imm13Field_encodeJ (op : BitVec 3) (imm13 : Addr) : imm13Field (encodeJ op imm13) = imm13 := by
  simp [imm13Field, encodeJ, BitVec.extractLsb'_or]

/-- The target field of format J by arithmetic (30 R81, R87). -/
theorem toNat_imm13Field (w : Word) : (imm13Field w).toNat = w.toNat % 8192 := by
  simp [imm13Field]

/-! The immediates a word can hold are the extensions of their low seven bits (30 R85, R86, R95). -/

/-- Sign extension by arithmetic (30 R85). -/
theorem toNat_sext16 (v : BitVec 7) : (sext16 v).toNat = if v.toNat < 64 then v.toNat else v.toNat + 0xFF80 := by
  rw [sext16, BitVec.toNat_signExtend, BitVec.msb_eq_decide, BitVec.toNat_setWidth_of_le (by decide)]
  by_cases h : v.toNat < 64 <;> simp [h]

/-- Zero extension by arithmetic (30 R86). -/
theorem toNat_zext16 (v : BitVec 7) : (zext16 v).toNat = v.toNat :=
  BitVec.toNat_setWidth_of_le (by decide)

/-- A signed immediate in range is the sign extension of the bits its word stores. -/
theorem sext16_setWidth {imm : Word} (h : signedImmOk imm = true) : sext16 (imm.setWidth 7) = imm := by
  have hrange : imm.toNat < 64 ∨ 0xFFC0 ≤ imm.toNat := of_decide_eq_true h
  have hlt := imm.isLt
  apply BitVec.eq_of_toNat_eq
  rw [toNat_sext16, BitVec.toNat_setWidth]
  split <;> omega

/-- An unsigned immediate in range is the zero extension of the bits its word stores. -/
theorem zext16_setWidth {imm : Word} (h : unsignedImmOk imm = true) : zext16 (imm.setWidth 7) = imm := by
  have hrange : imm.toNat < 128 := of_decide_eq_true h
  apply BitVec.eq_of_toNat_eq
  rw [toNat_zext16, BitVec.toNat_setWidth, Nat.mod_eq_of_lt hrange]

/-- Every sign extension of seven bits is a signed immediate in range. -/
theorem signedImmOk_sext16 (v : BitVec 7) : signedImmOk (sext16 v) = true := by
  rw [signedImmOk, decide_eq_true_eq, toNat_sext16]
  have hlt := v.isLt
  split <;> omega

/-- Every zero extension of seven bits is an unsigned immediate in range. -/
theorem unsignedImmOk_zext16 (v : BitVec 7) : unsignedImmOk (zext16 v) = true := by
  rw [unsignedImmOk, decide_eq_true_eq, toNat_zext16]
  exact v.isLt

end Sys2Proof
end

section
/-! SUPPORT. The rows of the opcode table: what the table lists for a decoded instruction, and that two rows share no word
(30_encoding.md R88, R89). -/

namespace Sys2Proof

/-- Row `k` of the opcode table: (match, mask). -/
def opcodeRow (k : Fin 23) : Word × Word := opcodeTable[k.val]

/-- A word lies in a row when its bits under the row's mask are the row's match (30 R89). -/
def InRow (w : Word) (k : Fin 23) : Prop := w &&& (opcodeRow k).2 = (opcodeRow k).1

/-- The row of an instruction of op 0 lists its funct. -/
theorem opcodeRow_decodeFunct (w : Word) :
    opcodeRow (decodeFunct w).row = (BitVec.ofNat 16 (functField w), 0xE00F#16) := by
  have hlt : functField w < 16 := (w.extractLsb' 0 4).isLt
  unfold decodeFunct
  interval_cases functField w <;> rfl

/-- The row of any other instruction lists its op. -/
theorem opcodeRow_decode {w : Word} (h : opField w ≠ 0) :
    opcodeRow (decode w).row = (placeField (BitVec.ofFin (w := 3) (opField w)) 13, 0xE000#16) := by
  unfold decode
  split
  case h_1 h0 => exact absurd h0 h
  all_goals rename_i hop; rw [hop]; rfl

/-- Under op 0 the mask of format R keeps the funct field and nothing else (30 R81, R89). -/
theorem and_functMask {w : Word} (h : opField w = 0) : w &&& 0xE00F#16 = BitVec.ofNat 16 (functField w) := by
  have hop : w &&& 0xE000#16 = 0#16 := by
    rw [and_opMask, h]
    rfl
  have hfunct : w &&& 0x000F#16 = BitVec.ofNat 16 (functField w) := by
    rw [functField, BitVec.ofNat_toNat]
    apply BitVec.eq_of_getLsbD_eq
    intro i hi
    interval_cases i <;> simp
  calc w &&& 0xE00F#16 = w &&& (0xE000#16 ||| 0x000F#16) := rfl
    _ = BitVec.ofNat 16 (functField w) := by rw [BitVec.and_or_distrib_left, hop, hfunct, BitVec.zero_or]

/-- Every word lies in the row of the instruction it decodes to. -/
theorem inRow_row_decode (w : Word) : InRow w (decode w).row := by
  unfold InRow
  by_cases h : opField w = 0
  · rw [decode_of_opField_zero h, opcodeRow_decodeFunct]
    exact and_functMask h
  · rw [opcodeRow_decode h]
    exact and_opMask w

/-- On the bits that both their masks name, the matches of two rows differ. -/
theorem opcodeRow_disjoint : ∀ k l : Fin 23,
    (opcodeRow k).1 &&& (opcodeRow l).2 = (opcodeRow l).1 &&& (opcodeRow k).2 → k = l := by
  decide

/-- A word lies in one row only. -/
theorem InRow.unique {w : Word} {k l : Fin 23} (hk : InRow w k) (hl : InRow w l) : k = l := by
  apply opcodeRow_disjoint
  rw [← hk, ← hl, BitVec.and_assoc, BitVec.and_assoc, BitVec.and_comm (opcodeRow k).2]

end Sys2Proof
end

section
/-! SUPPORT. The halt test and the target of j, as numbers (41_control.md R121, R122). -/

namespace Sys2Proof.Machine

/-- The reading `full16` compares the target with the whole pc (41 R122). -/
theorem haltTest_full16_iff (imm13 : Addr) (pc : Word) :
    haltTest .full16 imm13 pc = true ↔ imm13.toNat = pc.toNat := by
  have hval : imm13.setWidth 16 = pc ↔ imm13.toNat = pc.toNat := by
    rw [BitVec.toNat_eq, BitVec.toNat_setWidth_of_le (by decide)]
  simp [haltTest, hval]

/-- The reading `low13` compares the target with the pc modulo 8192 (41 R122). -/
theorem haltTest_low13_iff (imm13 : Addr) (pc : Word) :
    haltTest .low13 imm13 pc = true ↔ imm13.toNat = pc.toNat % 8192 := by
  have hval : imm13 = pc.setWidth 13 ↔ imm13.toNat = pc.toNat % 8192 := by
    rw [BitVec.toNat_eq, BitVec.toNat_setWidth]
  have hfull : imm13.setWidth 16 = pc → imm13 = pc.setWidth 13 := by
    rintro rfl
    simp
  rw [← hval]
  simpa [haltTest] using hfull

/-- The target of a jump is its 13-bit number (30 R87). -/
theorem jumpTarget_eq_ofNat (imm13 : Addr) : jumpTarget imm13 = BitVec.ofNat 16 imm13.toNat :=
  (BitVec.ofNat_toNat 16 imm13).symm

end Sys2Proof.Machine
end

section
/-! The statements about encoding and decoding, and about j (30_encoding.md, 41_control.md). -/

namespace Sys2Proof.Machine

/-- Settles O1: the decoder reads back op, funct and every operand field; a well-formed immediate is the extension of its
low seven bits. -/
theorem decodeInvertsEncode : Obligations.DecodeInvertsEncode := by
  unfold Obligations.DecodeInvertsEncode
  intro i hwf
  cases i with
  | add | sub | or | and | slt | jr | nopFunct5 | nopFunct6 | nopFunct7 | nopFunct9 | nopFunct10 | nopFunct11
    | nopFunct12 | nopFunct13 | nopFunct14 | nopFunct15 =>
    simp [encode, decode_of_opField_zero, decodeFunct]
  | j | jal => simp [encode, decode]
  | addi | lw | sw | jeq => simp [encode, decode, sext16_setWidth hwf]
  | slti => simp [encode, decode, zext16_setWidth hwf]

/-- Settles O2: only the immediates are constrained, and they are extensions of seven bits. -/
theorem decodedInstructionsAreWellFormed : Obligations.DecodedInstructionsAreWellFormed := by
  unfold Obligations.DecodedInstructionsAreWellFormed
  intro w
  unfold decode
  split
  case h_1 => unfold decodeFunct; split <;> rfl
  case h_3 | h_4 => rfl
  case h_8 => exact unsignedImmOk_zext16 _
  all_goals exact signedImmOk_sext16 _

/-- Settles O4: a word lies in the row of its instruction, and in no other. -/
theorem opcodeRowsPartitionTheWords : Obligations.OpcodeRowsPartitionTheWords := by
  unfold Obligations.OpcodeRowsPartitionTheWords
  intro w k
  show InRow w k ↔ (decode w).row = k
  constructor
  · exact (inRow_row_decode w).unique
  · rintro rfl
    exact inRow_row_decode w

/-- Settles O15: the row fixes the op, and each reading of the halt test is its comparison of numbers. -/
theorem jHaltsOrJumps : Obligations.JHaltsOrJumps := by
  unfold Obligations.JHaltsOrJumps
  refine ⟨fun w h => ?_, fun imm13 pc => ⟨haltTest_full16_iff imm13 pc, haltTest_low13_iff imm13 pc⟩,
    fun imm13 s => ?_⟩
  · have hop : opField w = 2 := opField_of_and_opMask (op := 2) h
    exact ⟨imm13Field w, by simp [decode, hop], toNat_imm13Field w⟩
  · rw [exec_j, jumpTarget_eq_ofNat]
    rfl

end Sys2Proof.Machine
end

section
/-! SUPPORT. The encoding clauses of formats R and I: a row's decoded instruction with the word's fields and immediate by
arithmetic (30_encoding.md R81, R85, R86, R88, R89). -/

namespace Sys2Proof

/-- Every word of the row of `funct` decodes to the instruction `funct` selects, with the word's register fields
(30 R88, R89). -/
theorem exists_decode_eq_and_fieldsR {w : Word} {funct : BitVec 4} {mk : RegNo → RegNo → RegNo → Instr}
    (h : w &&& 0xE00F#16 = funct.setWidth 16)
    (hmk : functField w = funct.toNat → decodeFunct w = mk (rdField w) (rsField w) (rtField w)) :
    ∃ rd rs rt, decode w = mk rd rs rt ∧ FieldsR w rd rs rt := by
  obtain ⟨hop, hfunct⟩ := fields_of_masked_eq_funct h
  exact ⟨_, _, _, (decode_of_opField_zero hop).trans (hmk hfunct), fieldsR_fields w⟩

/-- The register fields of format I are those of format R (30 R81). -/
theorem fieldsI_fields (w : Word) : FieldsI w (rsField w) (rtField w) := (fieldsR_fields w).2

/-- The immediate field of format I by arithmetic (30 R81). -/
theorem toNat_imm7Field (w : Word) : (imm7Field w).toNat = w.toNat % 128 := by
  simp [imm7Field]

/-- The sign extension of a word's immediate field is its signed immediate (30 R85). -/
theorem signedImm_sext16_imm7Field (w : Word) : SignedImm w (sext16 (imm7Field w)) := by
  rw [SignedImm, toNat_sext16, toNat_imm7Field]

end Sys2Proof
end

section
/-! SUPPORT. The ALU's results by arithmetic and by bits, and as the destination reads them (40_alu.md R100). -/

namespace Sys2Proof.Machine

/-- The sum is modulo 2^16 (00 R9; 40 R100, row ADD). -/
theorem toNat_alu_add (a b : Word) : (alu .add a b).toNat = (a.toNat + b.toNat) % 65536 :=
  BitVec.toNat_add a b

/-- The difference is modulo 2^16 (00 R9; 40 R100, row SUB). -/
theorem toNat_alu_sub (a b : Word) : (alu .sub a b).toNat = (a.toNat + 65536 - b.toNat) % 65536 := by
  have hb := b.isLt
  rw [alu, BitVec.toNat_sub]
  congr 1
  omega

/-- The destination's value is the result's, discarded for register 0 (10 R21). -/
theorem toNat_readReg_aluWrite (s : State) (op : AluOp) (d : RegNo) (a b : Word) :
    ((s.aluWrite op d a b).readReg d).toNat = if d = 0 then 0 else (alu op a b).toNat := by
  rw [State.readReg_aluWrite_dest]
  split <;> rfl

/-- The destination's bits are the result's, discarded for register 0 (10 R21). -/
theorem getLsbD_readReg_aluWrite (s : State) (op : AluOp) (d : RegNo) (a b : Word) (k : Nat) :
    ((s.aluWrite op d a b).readReg d).getLsbD k = (decide (d ≠ 0) && (alu op a b).getLsbD k) := by
  rw [State.readReg_aluWrite_dest]
  by_cases hd : d = 0 <;> simp [hd]

end Sys2Proof.Machine
end

section
/-! The statements about add, sub, or, and, addi and slti (40_alu.md sections 2 and 3). -/

namespace Sys2Proof.Machine

/-- Settles O6: the row fixes op and funct, and add is one `aluWrite` of the wrapped sum. -/
theorem addWritesTheWrappedSum : Obligations.AddWritesTheWrappedSum := by
  unfold Obligations.AddWritesTheWrappedSum
  refine ⟨fun w h => exists_decode_eq_and_fieldsR (funct := 0) h fun hf => by simp [decodeFunct, hf],
    fun rd rs rt s => ⟨_, exec_add rd rs rt s, ?_, s.aluWrite_frame .add rd _ _⟩⟩
  rw [toNat_readReg_aluWrite, toNat_alu_add]

/-- Settles O7: the row fixes op and funct, and sub is one `aluWrite` of the wrapped difference. -/
theorem subWritesTheWrappedDifference : Obligations.SubWritesTheWrappedDifference := by
  unfold Obligations.SubWritesTheWrappedDifference
  refine ⟨fun w h => exists_decode_eq_and_fieldsR (funct := 1) h fun hf => by simp [decodeFunct, hf],
    fun rd rs rt s => ⟨_, exec_sub rd rs rt s, ?_, s.aluWrite_frame .sub rd _ _⟩⟩
  rw [toNat_readReg_aluWrite, toNat_alu_sub]

/-- Settles O8: the row fixes op and funct, and `or` is one `aluWrite` of the OR of each bit. -/
theorem orWritesTheBitwiseOr : Obligations.OrWritesTheBitwiseOr := by
  unfold Obligations.OrWritesTheBitwiseOr
  refine ⟨fun w h => exists_decode_eq_and_fieldsR (funct := 2) h fun hf => by simp [decodeFunct, hf],
    fun rd rs rt s => ⟨_, exec_or rd rs rt s, fun k _ => ?_, s.aluWrite_frame .or rd _ _⟩⟩
  rw [getLsbD_readReg_aluWrite, alu, BitVec.getLsbD_or]

/-- Settles O9: the row fixes op and funct, and `and` is one `aluWrite` of the AND of each bit. -/
theorem andWritesTheBitwiseAnd : Obligations.AndWritesTheBitwiseAnd := by
  unfold Obligations.AndWritesTheBitwiseAnd
  refine ⟨fun w h => exists_decode_eq_and_fieldsR (funct := 3) h fun hf => by simp [decodeFunct, hf],
    fun rd rs rt s => ⟨_, exec_and rd rs rt s, fun k _ => ?_, s.aluWrite_frame .and rd _ _⟩⟩
  rw [getLsbD_readReg_aluWrite, alu, BitVec.getLsbD_and]

/-- Settles O11: the row fixes the op, the decoder sign-extends the immediate field, and addi is one `aluWrite` of the
wrapped sum. -/
theorem addiAddsTheSignedImmediate : Obligations.AddiAddsTheSignedImmediate := by
  unfold Obligations.AddiAddsTheSignedImmediate
  refine ⟨fun w h => ?_, fun rt rs imm s => ⟨_, exec_addi rt rs imm s, ?_, s.aluWrite_frame .add rt _ _⟩⟩
  · have hop : opField w = 1 := opField_of_and_opMask (op := 1) h
    exact ⟨rtField w, rsField w, sext16 (imm7Field w), by simp [decode, hop], fieldsI_fields w,
      signedImm_sext16_imm7Field w⟩
  · rw [toNat_readReg_aluWrite, toNat_alu_add]

/-- Settles O12: the row fixes the op, the decoder zero-extends the immediate field, and slti is one `aluWrite` of the
unsigned compare. -/
theorem sltiComparesWithTheUnsignedImmediate : Obligations.SltiComparesWithTheUnsignedImmediate := by
  unfold Obligations.SltiComparesWithTheUnsignedImmediate
  refine ⟨fun w h => ?_, fun rt rs imm s => ⟨_, exec_slti rt rs imm s,
    toNat_readReg_aluWrite_ltu s rt _ _, s.aluWrite_frame .ltu rt _ _⟩⟩
  have hop : opField w = 7 := opField_of_and_opMask (op := 7) h
  exact ⟨rtField w, rsField w, zext16 (imm7Field w), by simp [decode, hop], fieldsI_fields w,
    (toNat_zext16 _).trans (toNat_imm7Field w)⟩

end Sys2Proof.Machine
end

section
/-! SUPPORT. The control transfers other than j: the values they put in the pc and the link register as numbers, and the
frame of a write to the pc (41_control.md R120 to R124). -/

namespace Sys2Proof.Machine

/-- A jump target is its 13 bits, zero-extended (30 R87). -/
theorem toNat_jumpTarget (imm13 : Addr) : (jumpTarget imm13).toNat = imm13.toNat :=
  BitVec.toNat_setWidth_of_le (by decide)

/-- The link is the 16-bit pc + 1 (41 R123). -/
theorem State.toNat_linkValue (s : State) : s.linkValue.toNat = (s.pc.toNat + 1) % 65536 :=
  BitVec.toNat_add s.pc 1

/-- The target of a taken jeq is relative to pc + 1 and wraps once, at 2^16 (41 R124). -/
theorem State.toNat_branchTarget (s : State) (imm : Word) :
    (s.branchTarget imm).toNat = (s.pc.toNat + 1 + imm.toNat) % 65536 := by
  simp [State.branchTarget, BitVec.toNat_add]

/-- A write to the pc changes nothing else. -/
theorem State.setPc_frame (s : State) (p : Word) : RegsKept s (s.setPc p) none ∧ RestKept s (s.setPc p) :=
  ⟨.of_regs_eq (s.setPc_regs p) none, s.setPc_mem p, s.setPc_cache p, s.setPc_trace p, s.setPc_halted p⟩

/-- The next pc of jeq: its target when the registers are equal on all 16 bits, else pc + 1 (41 R124). -/
def State.jeqPc (s : State) (rs rt : RegNo) (imm : Word) : Word :=
  if s.readReg rs = s.readReg rt then s.branchTarget imm else s.pc + 1

/-- Taken or not, jeq is one write to the pc (41 R124). -/
theorem exec_jeq_eq_setPc (rs rt : RegNo) (imm : Word) (s : State) :
    exec (.jeq rs rt imm) s = .next (s.setPc (s.jeqPc rs rt imm)) := by
  by_cases h : s.readReg rs = s.readReg rt
  · simp [wordsEqual, State.jeqPc, h]
  · simp [wordsEqual, State.jeqPc, h, State.advance]

/-- The next pc of jeq by arithmetic (41 R124). -/
theorem State.toNat_jeqPc (s : State) (rs rt : RegNo) (imm : Word) :
    (s.jeqPc rs rt imm).toNat =
      if (s.readReg rs).toNat = (s.readReg rt).toNat then (s.pc.toNat + 1 + imm.toNat) % 65536
      else (s.pc.toNat + 1) % 65536 := by
  simp only [State.jeqPc, ← BitVec.toNat_eq]
  split
  · exact s.toNat_branchTarget imm
  · exact BitVec.toNat_add s.pc 1

end Sys2Proof.Machine
end

section
/-! The statements about jr, jal and jeq (41_control.md). -/

namespace Sys2Proof.Machine

/-- Settles O14: the row fixes op and funct, the rs field is a digit of the word, and jr is one write to the pc. -/
theorem jrJumpsToTheWholeRegister : Obligations.JrJumpsToTheWholeRegister := by
  unfold Obligations.JrJumpsToTheWholeRegister
  refine ⟨fun w h => ?_, fun rs s => exec_jr rs s⟩
  obtain ⟨hop, hfunct⟩ := fields_of_masked_eq_funct (funct := 8) h
  obtain ⟨hrs, -⟩ := fieldsI_fields w
  exact ⟨rsField w, by simp [decode_of_opField_zero hop, decodeFunct, hfunct], hrs⟩

/-- Settles O18: the row fixes the op, and jal writes the link to register 7, then the target to the pc. -/
theorem jalLinksAndJumps : Obligations.JalLinksAndJumps := by
  unfold Obligations.JalLinksAndJumps
  refine ⟨fun w h => ?_, fun imm13 s => ⟨_, exec_jal imm13 s, ?_, toNat_jumpTarget imm13,
    .of_writeReg (State.setPc_regs _ _), by simp [RestKept]⟩⟩
  · have hop : opField w = 3 := opField_of_and_opMask (op := 3) h
    exact ⟨imm13Field w, by simp [decode, hop], toNat_imm13Field w⟩
  · rw [State.readReg_congr (State.setPc_regs _ _), State.readReg_writeReg, if_neg (by decide),
      if_pos (show 7 = linkReg from rfl), State.toNat_linkValue]

/-- Settles O19: the row fixes the op, the decoder sign-extends the immediate field, and jeq is one write to the pc. -/
theorem jeqBranchesWhenEqual : Obligations.JeqBranchesWhenEqual := by
  unfold Obligations.JeqBranchesWhenEqual
  refine ⟨fun w h => ?_, fun rs rt imm s => ⟨_, exec_jeq_eq_setPc rs rt imm s, s.toNat_jeqPc rs rt imm,
    s.setPc_frame _⟩⟩
  have hop : opField w = 6 := opField_of_and_opMask (op := 6) h
  exact ⟨rsField w, rtField w, sext16 (imm7Field w), by simp [decode, hop], fieldsI_fields w,
    signedImm_sext16_imm7Field w⟩

end Sys2Proof.Machine
end

section
/-! SUPPORT. The encoding clause that lw and sw share (30_encoding.md R83, R85, R88, R89). -/

namespace Sys2Proof

/-- Every word of a row of format I with a signed immediate decodes to the instruction its op selects, with the word's
register fields and the sign extension of its immediate field. -/
theorem exists_decode_eq_and_signedImm {w : Word} {op : BitVec 3} {mk : RegNo → RegNo → Word → Instr}
    (h : w &&& 0xE000#16 = placeField op 13)
    (hmk : opField w = op.toFin → decode w = mk (rtField w) (rsField w) (sext16 (imm7Field w))) :
    ∃ rt rs imm, decode w = mk rt rs imm ∧ FieldsI w rs rt ∧ SignedImm w imm :=
  ⟨_, _, _, hmk (opField_of_and_opMask h), fieldsI_fields w, signedImm_sext16_imm7Field w⟩

end Sys2Proof
end

section
/-! SUPPORT. The data address as the statements give it, and what a load leaves in its destination
(42_loadstore.md R140, R141). -/

namespace Sys2Proof.Machine

/-- The index that meets the equation of 42 R140 is the effective address. -/
theorem State.effAddr_eq {s : State} {rs : RegNo} {imm : Word} {a : Addr}
    (ha : a.toNat = ((s.readReg rs).toNat + imm.toNat) % 8192) : s.effAddr rs imm = a :=
  BitVec.eq_of_toNat_eq ((s.toNat_effAddr rs imm).trans ha.symm)

/-- A write followed by the advance of the pc: the destination reads the value, register 0 reads 0 (10 R21). -/
theorem State.readReg_advance_writeReg (s : State) (d : RegNo) (v : Word) :
    (s.writeReg d v).advance.readReg d = if d = 0 then 0 else v := by
  rw [State.readReg_congr (State.advance_regs _), State.readReg_writeReg, if_pos rfl]

end Sys2Proof.Machine
end

section
/-! The statements about lw and sw (42_loadstore.md). -/

namespace Sys2Proof.Machine

/-- Settles O20: the row fixes the op, and lw is a load access of the cache, then a register write of memory's Word. -/
theorem lwLoadsTheMemoryWord : Obligations.LwLoadsTheMemoryWord := by
  unfold Obligations.LwLoadsTheMemoryWord
  refine ⟨fun w h => exists_decode_eq_and_signedImm (op := 4) h fun hop => by simp [decode, hop],
    fun rt rs imm a s ha => ?_⟩
  obtain rfl := State.effAddr_eq ha
  exact ⟨_, exec_lw rt rs imm s, State.readReg_advance_writeReg _ rt _, by simp,
    (Effect.load rt rs imm rfl).regsKept, by simp⟩

/-- Settles O21: the row fixes the op, and sw is a store access of the cache, then a write of one Word of memory. -/
theorem swStoresTheRegister : Obligations.SwStoresTheRegister := by
  unfold Obligations.SwStoresTheRegister
  refine ⟨fun w h => exists_decode_eq_and_signedImm (op := 5) h fun hop => by simp [decode, hop],
    fun rt rs imm a s hwf ha => ?_⟩
  obtain rfl := State.effAddr_eq ha
  exact ⟨_, exec_sw rt rs imm s, Memory.wordAt_setWord_self hwf _ _,
    fun k hk => Memory.byteAt_setWord_ne s.mem _ hk, fun b hb => Memory.wordAt_setWord_ne s.mem _ hb, by simp⟩

end Sys2Proof.Machine
end

section
/-! The statements about exceptions and the stop of the machine (60_exceptions.md). -/

namespace Sys2Proof.Machine

/-- A halted machine has no next step: its step is the fault `halted` (10 R35; 70 R172). -/
theorem step_of_halted {s : State} (h : s.halted = true) : step s = .fault .halted := if_pos h

/-- Settles O28: every instruction has one of the effects, and `step` stops a machine only by its halted flag. -/
theorem nothingTrapsAndOnlyTheHaltStops : Obligations.NothingTrapsAndOnlyTheHaltStops := by
  unfold Obligations.NothingTrapsAndOnlyTheHaltStops
  have hexec (i : Instr) (s : State) : ∃ t, exec i s = .next t :=
    (exec_effect i s).imp fun _ ⟨ht, _⟩ => ht
  refine ⟨hexec, fun s hrun => ?_, fun _ => step_of_halted⟩
  obtain ⟨u, hu⟩ := hexec s.fetchInstr s
  exact ⟨u.forceZero, step_of_exec hrun hu⟩

end Sys2Proof.Machine
end

section
/-! SUPPORT. What a launch builds: a valid geometry's level, and the hierarchy of a valid configuration, meet their part
of the invariant (10_state.md R31, R32; 20_memory.md R68). -/

namespace Sys2Proof

/-- A triple is valid when each of its four conditions holds (10 R31). -/
theorem Geometry.valid_iff (g : Geometry) : g.valid = true ↔
    1 ≤ g.assoc ∧ 1 ≤ g.blocksize ∧ g.size % (g.assoc * g.blocksize) = 0 ∧ 1 ≤ g.rows := by
  simp [Geometry.valid, and_assoc]

/-- The configuration reset builds is valid, whatever the open configuration is (log entry 5). -/
theorem Config.valid_launchCfg : Config.launchCfg.valid = true := by
  unfold Config.launchCfg
  split
  case isTrue hvalid => exact hvalid
  case isFalse => rfl

end Sys2Proof

namespace Sys2Proof.Machine

/-- A row of empty blocks is well formed: it holds no tag (20 R68). -/
theorem rowWf_replicate_empty (l : Level) (r : Nat) : RowWf l r (List.replicate l.assoc .empty) := by
  simp [RowWf]

/-- A valid triple builds a well-formed level (10 R31, R32). -/
theorem levelWf_levelBuild (name : LevelName) {g : Geometry} (h : g.valid = true) :
    LevelWf name (levelBuild name g) := by
  obtain ⟨hassoc, hblocksize, -, hrows⟩ := g.valid_iff.1 h
  refine ⟨rfl, hassoc, hblocksize, hrows, List.length_replicate, fun r hr => ?_⟩
  have hrow : (levelBuild name g).sets.getD r [] = List.replicate g.assoc .empty :=
    List.getD_replicate _ hr
  rw [hrow]
  exact rowWf_replicate_empty (levelBuild name g) r

/-- A valid configuration builds a well-formed hierarchy (10 R30, R31). -/
theorem cacheWf_cacheBuild {cfg : CacheCfg} (h : cfg.valid = true) : cacheWf (cacheBuild cfg) = true := by
  cases cfg with
  | none => rfl
  | oneLevel g1 => exact decide_eq_true (levelWf_levelBuild .L1 h)
  | twoLevels g1 g2 =>
    obtain ⟨h1, h2⟩ := Bool.and_eq_true_iff.1 h
    exact Bool.and_eq_true_iff.2
      ⟨decide_eq_true (levelWf_levelBuild .L1 h1), decide_eq_true (levelWf_levelBuild .L2 h2)⟩

/-- A launch is the reset of a valid configuration with an image that fits (70 R170, R171). -/
theorem State.launch_eq_some_iff {cfg : CacheCfg} {image : List Word} {s : State} :
    State.launch cfg image = some s ↔
      (cfg.valid = true ∧ image.length ≤ 8192) ∧ State.resetWith cfg image = s :=
  Option.ite_none_right_eq_some.trans (and_congr_right fun _ => Option.some_inj)

/-- The reset of a valid configuration with an image that fits meets the invariant (20 R68; 10 R38). -/
theorem State.inv_resetWith {cfg : CacheCfg} {image : List Word} (hcfg : cfg.valid = true)
    (himage : image.length ≤ 8192) : (State.resetWith cfg image).Inv :=
  ⟨rfl, Memory.wf_loadFrom image 0 (by omega), cacheWf_cacheBuild hcfg, List.forall_mem_nil _⟩

end Sys2Proof.Machine
end

section
/-! SUPPORT. What a loaded image reads as, and where a step fetches from it (70_reset_and_hazards.md R171, R172). -/

namespace Sys2Proof.Machine

/-- The index fetched from is the pc modulo 8192 (10 R25). -/
theorem fetchIndex_eq {pc : Word} {a : Addr} (h : a.toNat = pc.toNat % 8192) : fetchIndex pc = a :=
  BitVec.eq_of_toNat_eq ((BitVec.toNat_setWidth 13 pc).trans h.symm)

/-- Dropping the zero cells of a rising stretch of cells that lies below the rest changes no reading. -/
theorem Memory.byteAt_filter_append {p q : Memory} (hp : p.Pairwise (fun c d => c.1 < d.1))
    (hpq : ∀ c ∈ p, ∀ d ∈ q, c.1 < d.1) (key : Nat) :
    Memory.byteAt (p.filter (fun c => c.2 ≠ Memory.unlisted) ++ q) key = Memory.byteAt (p ++ q) key := by
  induction p with
  | nil => rfl
  | cons c p ih =>
    obtain ⟨k, b⟩ := c
    obtain ⟨hlt, hp⟩ := List.pairwise_cons.1 hp
    obtain ⟨hkq, hpq⟩ := List.forall_mem_cons.1 hpq
    by_cases hb : b = Memory.unlisted
    · have habove : ∀ d ∈ p ++ q, k < d.1 := fun d hd => (List.mem_append.1 hd).elim (hlt d) (hkq d)
      have hskip : Memory.byteAt ((k, b) :: (p ++ q)) key = Memory.byteAt (p ++ q) key := by
        rw [Memory.byteAt_cons]
        split
        next hkey => rw [hb, ← hkey, Memory.byteAt_of_lt habove]
        next => rfl
      rw [List.filter_cons_of_neg (by simpa using hb), List.cons_append, hskip]
      exact ih hp hpq
    · simpa [hb, Memory.byteAt_cons] using congrArg (if k = key then b else ·) (ih hp hpq)

/-- A loaded image reads as its first Word's two cells, zero or not, before those of the other Words. -/
theorem Memory.byteAt_loadFrom_cons (w : Word) (ws : List Word) (a key : Nat) :
    (Memory.loadFrom (w :: ws) a).byteAt key =
      if 2 * a = key then w.extractLsb' 0 8 else
        if 2 * a + 1 = key then w.extractLsb' 8 8 else (Memory.loadFrom ws (a + 1)).byteAt key := by
  refine Memory.byteAt_filter_append (by simp) (fun c hc d hd => ?_) key
  have hd := (Memory.mem_loadFrom hd).1
  have hc : c.1 < 2 * (a + 1) := by
    obtain rfl | rfl : c = _ ∨ c = _ := by simpa using hc
    · show 2 * a < _
      omega
    · show 2 * a + 1 < _
      omega
  omega

/-- An image loaded from index `base` on reads back Word by Word, and as 0 above its end. -/
theorem Memory.wordAt_loadFrom (ws : List Word) {base : Nat} {a : Addr} (h : base ≤ a.toNat) :
    (Memory.loadFrom ws base).wordAt a = ws.getD (a.toNat - base) 0 := by
  induction ws generalizing base with
  | nil => simp [Memory.loadFrom, Memory.wordAt, Memory.unlisted]
  | cons w ws ih =>
    simp only [Memory.wordAt, Memory.byteAt_loadFrom_cons]
    by_cases hbase : base = a.toNat
    · have hword : w.extractLsb' 8 8 ++ w.extractLsb' 0 8 = w :=
        (BitVec.extractLsb'_append_extractLsb'_eq_extractLsb' rfl).trans BitVec.extractLsb'_eq_self
      simpa [hbase] using hword
    · obtain ⟨k, hk⟩ : ∃ k, a.toNat - base = k + 1 := ⟨a.toNat - base - 1, by omega⟩
      have hrest := ih (base := base + 1) (by omega)
      rw [show a.toNat - (base + 1) = k by omega] at hrest
      simp (disch := omega) only [if_neg, hk, List.getD_cons_succ]
      exact hrest

end Sys2Proof.Machine
end

section
/-! The statements about reset, launch and the step (70_reset_and_hazards.md). -/

namespace Sys2Proof.Machine

/-- Settles O44: a launch is a reset of a valid configuration, which builds each part of the state well formed. -/
theorem launchedStatesMeetTheInvariant : Obligations.LaunchedStatesMeetTheInvariant := by
  unfold Obligations.LaunchedStatesMeetTheInvariant
  intro cfg image s h
  obtain ⟨⟨hcfg, himage⟩, rfl⟩ := State.launch_eq_some_iff.1 h
  exact State.inv_resetWith hcfg himage

/-- Settles O47: the memory of a launch is the image loaded from index 0. -/
theorem launchLoadsTheImage : Obligations.LaunchLoadsTheImage := by
  unfold Obligations.LaunchLoadsTheImage
  intro cfg image s h a
  obtain ⟨-, rfl⟩ := State.launch_eq_some_iff.1 h
  exact Memory.wordAt_loadFrom image (Nat.zero_le _)

/-- Settles O27: every instruction completes, and the step of a running machine is the fetched one's. -/
theorem stepRunsTheDecodedInstruction : Obligations.StepRunsTheDecodedInstruction := by
  unfold Obligations.StepRunsTheDecodedInstruction
  intro s a hrun ha
  obtain rfl := fetchIndex_eq ha
  obtain ⟨t, ht, -⟩ := exec_effect s.fetchInstr s
  exact ⟨t, ht, step_of_exec hrun ht⟩

/-- Settles O45: the configuration reset builds is valid and the empty image fits, so reset is a launch and meets what
every launch meets. -/
theorem resetMeetsTheInvariant : Obligations.ResetMeetsTheInvariant := by
  unfold Obligations.ResetMeetsTheInvariant
  have hlaunch : State.launch Config.launchCfg [] = some State.reset :=
    State.launch_eq_some_iff.2 ⟨⟨Config.valid_launchCfg, Nat.zero_le _⟩, rfl⟩
  exact ⟨hlaunch, launchedStatesMeetTheInvariant _ _ _ hlaunch⟩

end Sys2Proof.Machine
end

section
/-! SUPPORT. A field placed where it was read is the word under the field's mask, so a format's word is the word under the
union of its fields' masks (30_encoding.md R81 to R84, R90). -/

namespace Sys2Proof

/-- A field read and placed back is the word under the field's bits. -/
theorem placeField_extractLsb' (w : Word) (n lo : Nat) :
    placeField (w.extractLsb' lo n) lo = w &&& placeField (BitVec.allOnes n) lo := by
  apply BitVec.eq_of_getLsbD_eq
  intro i hi
  by_cases hlo : i < lo
  · simp [placeField, hlo]
  · have hback : lo + (i - lo) = i := by omega
    simp [placeField, hi, hlo, hback, Bool.and_comm]

/-- The register field rs under its mask (30 R81). -/
theorem placeField_rsField (w : Word) : placeField (BitVec.ofFin (w := 3) (rsField w)) 10 = w &&& 0x1C00#16 :=
  placeField_extractLsb' w _ _

/-- The register field rt under its mask (30 R81). -/
theorem placeField_rtField (w : Word) : placeField (BitVec.ofFin (w := 3) (rtField w)) 7 = w &&& 0x0380#16 :=
  placeField_extractLsb' w _ _

/-- The register field rd under its mask (30 R81). -/
theorem placeField_rdField (w : Word) : placeField (BitVec.ofFin (w := 3) (rdField w)) 4 = w &&& 0x0070#16 :=
  placeField_extractLsb' w _ _

/-- The immediate field of format I under its mask (30 R81). -/
theorem placeField_imm7Field (w : Word) : placeField (imm7Field w) 0 = w &&& 0x007F#16 :=
  placeField_extractLsb' w _ _

/-- The target field of format J under its mask (30 R81). -/
theorem placeField_imm13Field (w : Word) : placeField (imm13Field w) 0 = w &&& 0x1FFF#16 :=
  placeField_extractLsb' w _ _

/-- The op of formats I and J under the mask of their rows (30 R81, R89). -/
theorem placeField_op {w : Word} {op : BitVec 3} (h : opField w = op.toFin) :
    placeField op 13 = w &&& 0xE000#16 := by
  rw [and_opMask, h]

/-- The funct of format R under the mask of its rows, which holds op 0 too (30 R81, R89). -/
theorem placeField_funct {w : Word} {funct : BitVec 4} (hop : opField w = 0) (h : functField w = funct.toNat) :
    placeField funct 0 = w &&& 0xE00F#16 := by
  rw [and_functMask hop, h, BitVec.ofNat_toNat]
  exact BitVec.shiftLeft_zero _

/-- A register operand that is not encoded leaves its bits 0 (30 R90). -/
theorem placeField_zero (lo : Nat) : placeField (BitVec.ofFin (w := 3) 0) lo = 0#16 :=
  BitVec.zero_shiftLeft lo

section
variable {w : Word} {funct : BitVec 4} (hop : opField w = 0) (hfunct : functField w = funct.toNat)
include hop hfunct

/-- The three register fields and the funct give back the whole word (30 R82). -/
theorem encodeR_fields : encodeR (rsField w) (rtField w) (rdField w) funct = w &&& 0xFFFF#16 := by
  rw [encodeR, placeField_rsField, placeField_rtField, placeField_rdField, placeField_funct hop hfunct]
  simp only [← BitVec.and_or_distrib_left]
  rfl

/-- The field rs and the funct give back all but bits 9:4 (30 R90). -/
theorem encodeR_rsField_zero_zero : encodeR (rsField w) 0 0 funct = w &&& 0xFC0F#16 := by
  rw [encodeR, placeField_rsField, placeField_zero, placeField_zero, placeField_funct hop hfunct,
    BitVec.or_zero, BitVec.or_zero, ← BitVec.and_or_distrib_left]
  rfl

/-- The funct gives back all but bits 12:4 (30 R90). -/
theorem encodeR_zero_zero_zero : encodeR 0 0 0 funct = w &&& 0xE00F#16 := by
  simp only [encodeR, placeField_zero, placeField_funct hop hfunct, BitVec.zero_or]

end

/-- The fields of format I and an immediate that extends the word's give back the whole word (30 R83). -/
theorem encodeI_fields {w imm : Word} {op : BitVec 3} (hop : opField w = op.toFin)
    (himm : imm.setWidth 7 = imm7Field w) : encodeI op (rsField w) (rtField w) imm = w &&& 0xFFFF#16 := by
  rw [encodeI, himm, placeField_op hop, placeField_rsField, placeField_rtField, placeField_imm7Field]
  simp only [← BitVec.and_or_distrib_left]
  rfl

/-- The fields of format J give back the whole word (30 R84). -/
theorem encodeJ_fields {w : Word} {op : BitVec 3} (hop : opField w = op.toFin) :
    encodeJ op (imm13Field w) = w &&& 0xFFFF#16 := by
  rw [encodeJ, placeField_op hop, placeField_imm13Field, ← BitVec.and_or_distrib_left]
  rfl

/-- The low seven bits of a sign extension are what was extended (30 R85). -/
theorem setWidth_sext16 (v : BitVec 7) : (sext16 v).setWidth 7 = v := by
  have hlt := v.isLt
  apply BitVec.eq_of_toNat_eq
  rw [BitVec.toNat_setWidth, toNat_sext16]
  split <;> omega

/-- The low seven bits of a zero extension are what was extended (30 R86). -/
theorem setWidth_zext16 (v : BitVec 7) : (zext16 v).setWidth 7 = v := by
  rw [zext16, BitVec.setWidth_setWidth_of_le _ (by decide), BitVec.setWidth_eq]

/-- Under op 0 the encoder gives back the bits that the instruction of the word's funct reads (30 R82, R90). -/
theorem encode_decodeFunct {w : Word} (hop : opField w = 0) :
    encode (decodeFunct w) = w &&& (decodeFunct w).readBits := by
  have hlt : functField w < 16 := (w.extractLsb' 0 4).isLt
  unfold decodeFunct
  split
  case h_1 hf | h_2 hf | h_3 hf | h_4 hf | h_5 hf => exact encodeR_fields hop hf
  case h_9 hf => exact encodeR_rsField_zero_zero hop hf
  case h_16 =>
    have hf : functField w = 15 := by grind
    exact encodeR_zero_zero_zero hop hf
  all_goals
    rename_i hf
    exact encodeR_zero_zero_zero hop hf

end Sys2Proof
end

section
/-! SUPPORT. The op and the funct of a word by arithmetic (30_encoding.md R81). -/

namespace Sys2Proof

/-- The op field by arithmetic. -/
theorem val_opField (w : Word) : (opField w).val = w.toNat / 8192 := by
  have hlt := w.isLt
  show (w.extractLsb' 13 3).toNat = _
  rw [BitVec.extractLsb'_toNat, Nat.shiftRight_eq_div_pow]
  omega

/-- The funct field by arithmetic. -/
theorem functField_eq (w : Word) : functField w = w.toNat % 16 := by
  simp [functField]

end Sys2Proof
end

section
/-! SUPPORT. When one instruction leaves the machine halted, and the halt test below address 8192 (41_control.md R122). -/

namespace Sys2Proof.Machine

/-- Below address 8192 the two readings of the halt test agree: the target is the pc (41 R122). -/
theorem haltTest_iff_of_lt (hc : HaltCompare) (imm13 : Addr) {pc : Word} (h : pc.toNat < 8192) :
    haltTest hc imm13 pc = true ↔ imm13.toNat = pc.toNat := by
  cases hc with
  | full16 => exact haltTest_full16_iff imm13 pc
  | low13 => rw [haltTest_low13_iff, Nat.mod_eq_of_lt h]

/-- Every effect but that of a j leaves the halted flag alone (10 R35). -/
theorem Effect.halted_of_ne_j {i : Instr} {s t : State} (h : Effect i s t) (hj : ∀ imm13, i ≠ .j imm13) :
    t.halted = s.halted := by
  cases h with
  | halt imm13 hi => exact absurd hi (hj imm13)
  | alu | advance | jump | link | load | store => simp

/-- An instruction executed on a running machine halts it exactly when it is a j that meets the halt test (41 R122). -/
theorem halted_of_exec_iff {i : Instr} {s t : State} (hrun : s.halted = false) (h : exec i s = .next t) :
    t.halted = true ↔ ∃ imm13, i = .j imm13 ∧ haltTest Config.haltCompare imm13 s.pc = true := by
  by_cases hj : ∃ imm13, i = .j imm13
  · obtain ⟨imm13, rfl⟩ := hj
    obtain rfl := Host.Outcome.next.inj ((exec_j imm13 s).symm.trans h)
    split
    next htest => exact iff_of_true rfl ⟨imm13, rfl, htest⟩
    next htest =>
      refine iff_of_false (by simp [hrun]) ?_
      rintro ⟨_, ⟨⟩, htest'⟩
      exact htest htest'
  · have hkept := (Effect.of_exec h).halted_of_ne_j fun imm13 hi => hj ⟨imm13, hi⟩
    refine iff_of_false (by simp [hkept, hrun]) ?_
    rintro ⟨imm13, hi, -⟩
    exact hj ⟨imm13, hi⟩

end Sys2Proof.Machine
end

section
/-! SUPPORT. Register 0 as a destination, and the pc as the place fetched from (10_state.md R21, R25). -/

namespace Sys2Proof.Machine

/-- A write to register 0 is discarded (10 R21). -/
@[simp] theorem State.writeReg_zero (s : State) (v : Word) : s.writeReg 0 v = s := if_pos rfl

/-- A register write before the advance of the pc changes the registers alone. -/
theorem State.with_regs_advance_writeReg (s : State) (d : RegNo) (v : Word) :
    { s.advance with regs := (s.writeReg d v).advance.regs } = (s.writeReg d v).advance := by
  unfold State.writeReg
  split <;> rfl

/-- An ALU instruction whose destination is register 0 only advances the pc (10 R21). -/
theorem State.aluWrite_zero (s : State) (op : AluOp) (a b : Word) : s.aluWrite op 0 a b = s.advance := by
  rw [State.aluWrite, State.writeReg_zero]

/-- An instruction whose destination is register 0 keeps every stored register. -/
theorem RegsKept.regs_eq_of_zero {s t : State} (h : RegsKept s t (some 0)) : t.regs = s.regs := by
  apply Vector.ext
  intro k hk
  refine h ⟨k, hk⟩ ?_
  by_cases hzero : (⟨k, hk⟩ : RegNo) = 0
  · exact .inr hzero
  · exact .inl fun e => hzero (Option.some.inj e).symm

/-- The index fetched from is the pc modulo 8192 (10 R25). -/
theorem toNat_fetchIndex (pc : Word) : (fetchIndex pc).toNat = pc.toNat % 8192 :=
  BitVec.toNat_setWidth 13 pc

end Sys2Proof.Machine
end

section
/-! SUPPORT. The levels a configuration builds: their geometry and their empty rows (10_state.md R30 to R32, R38). -/

namespace Sys2Proof

/-- A triple is valid when its parts are positive and its rows fill its size (10 R31, R32). -/
theorem Geometry.valid_iff_size_eq (g : Geometry) : g.valid = true ↔
    1 ≤ g.assoc ∧ 1 ≤ g.blocksize ∧ 1 ≤ g.rows ∧ g.size = g.rows * (g.assoc * g.blocksize) := by
  have hfill : g.size % (g.assoc * g.blocksize) = 0 ↔ g.size = g.rows * (g.assoc * g.blocksize) := by
    rw [← Nat.dvd_iff_mod_eq_zero, Nat.dvd_iff_div_mul_eq, eq_comm, Geometry.rows]
  rw [g.valid_iff, hfill, and_comm (a := g.size = _)]

end Sys2Proof

namespace Sys2Proof.Machine

/-- What reset builds of a triple is built from it. -/
theorem builtFrom_levelBuild (name : LevelName) (g : Geometry) : BuiltFrom name g (levelBuild name g) := by
  refine ⟨rfl, rfl, rfl, rfl, List.length_replicate, fun row hrow => ?_⟩
  obtain rfl := List.eq_of_mem_replicate hrow
  exact ⟨List.length_replicate, fun b hb => List.eq_of_mem_replicate hb⟩

/-- Every level reset builds is built from a triple. -/
theorem exists_of_mem_cacheBuild {cfg : CacheCfg} {l : Level} (h : l ∈ cacheBuild cfg) :
    ∃ name g, l = levelBuild name g := by
  cases cfg with
  | none => cases h
  | oneLevel g1 => exact ⟨.L1, g1, List.mem_singleton.1 h⟩
  | twoLevels g1 g2 =>
    obtain h | h := List.mem_pair.1 h
    · exact ⟨.L1, g1, h⟩
    · exact ⟨.L2, g2, h⟩

/-- The state after reset is in the LRU order of the empty trace (10 R38; 20 R68 item 4). -/
theorem State.lruOrdered_resetWith (cfg : CacheCfg) (image : List Word) :
    (State.resetWith cfg image).LruOrdered := by
  intro l hl r hr
  obtain ⟨name, g, rfl⟩ := exists_of_mem_cacheBuild hl
  calc (levelBuild name g).sets.getD r [] = List.replicate g.assoc .empty := List.getD_replicate _ hr
    _ = lruRow g.assoc [] := (lruRow_nil g.assoc).symm

end Sys2Proof.Machine
end

section
/-! The statements about words and the instructions they decode to (30_encoding.md). -/

namespace Sys2Proof.Machine

/-- Settles O3: each operand field is placed back under its own mask, and the masks of the fields an instruction carries
make up the bits it reads. -/
theorem encodeGivesBackTheReadBits : Obligations.EncodeGivesBackTheReadBits := by
  unfold Obligations.EncodeGivesBackTheReadBits
  intro w
  unfold decode
  split
  case h_1 hop => exact encode_decodeFunct hop
  case h_3 hop | h_4 hop => exact encodeJ_fields hop
  case h_8 hop => exact encodeI_fields hop (setWidth_zext16 _)
  all_goals
    rename_i hop
    exact encodeI_fields hop (setWidth_sext16 _)

/-- Settles O5, by running the decoder on the ten words. -/
theorem sampleWordsDecode : Obligations.SampleWordsDecode := by
  unfold Obligations.SampleWordsDecode
  decide

/-- Settles O13: op and funct alone select the no-op, and each of the ten is the advance of the pc. -/
theorem reservedFunctsOnlyAdvanceThePc : Obligations.ReservedFunctsOnlyAdvanceThePc := by
  unfold Obligations.ReservedFunctsOnlyAdvanceThePc
  refine ⟨fun w hop hfunct => ?_, fun s i hi => ?_⟩
  · have hop : opField w = 0 := Fin.ext ((val_opField w).trans hop)
    rw [← functField_eq] at hfunct
    rw [decode_of_opField_zero hop, decodeFunct]
    generalize functField w = funct at hfunct
    fin_cases hfunct <;> simp
  · fin_cases hi <;> rfl

end Sys2Proof.Machine
end

section
/-! The statements about the halt of the machine (41_control.md). -/

namespace Sys2Proof.Machine

/-- Settles O16: below address 8192 the open parameter makes no difference to the halt test. -/
theorem selfJumpBelow8192Halts : Obligations.SelfJumpBelow8192Halts := by
  unfold Obligations.SelfJumpBelow8192Halts
  intro imm13 s hpc
  simp only [exec_j, haltTest_iff_of_lt _ imm13 hpc, jumpTarget_eq_ofNat]
  rfl

/-- Settles O17: a step starts on a running machine, and only the halt of a j sets the flag. -/
theorem onlyASelfJumpHalts : Obligations.OnlyASelfJumpHalts := by
  unfold Obligations.OnlyASelfJumpHalts
  intro s t h
  obtain ⟨hrun, u, hu, rfl⟩ := step_eq_next h
  rw [State.forceZero_halted]
  exact halted_of_exec_iff hrun hu

end Sys2Proof.Machine
end

section
/-! The statements about the fetch, register 0 and a machine without a cache (10_state.md, 20_memory.md). -/

namespace Sys2Proof.Machine

/-- Settles O22: the pc fetches from the effective address of the sw, where memory holds the Word stored. -/
theorem storeIsSeenByTheNextFetch : Obligations.StoreIsSeenByTheNextFetch := by
  unfold Obligations.StoreIsSeenByTheNextFetch
  intro rt rs imm p s t hwf hp h
  obtain rfl := Host.Outcome.next.inj ((exec_sw rt rs imm s).symm.trans h)
  have hindex : fetchIndex p = s.effAddr rs imm := fetchIndex_eq ((s.toNat_effAddr rs imm).trans hp.symm)
  show decode ((s.mem.setWord (s.effAddr rs imm) (s.readReg rt)).wordAt (fetchIndex p)) = _
  rw [hindex, Memory.wordAt_setWord_self hwf]

/-- Settles O29: reads and writes treat register 0 apart, every step ends by forcing it, and two lw that differ in the
destination differ in one register write. -/
theorem registerZeroIsHardwired : Obligations.RegisterZeroIsHardwired := by
  unfold Obligations.RegisterZeroIsHardwired
  refine ⟨State.readReg_zero, fun i s t h hdest => ?_, fun s t h => ?_, fun rt rs imm s t u ht hu => ?_⟩
  · exact (hdest ▸ (Effect.of_exec h).regsKept).regs_eq_of_zero
  · obtain ⟨-, u, -, rfl⟩ := step_eq_next h
    exact ⟨by simp, State.readReg_zero _⟩
  · obtain rfl := Host.Outcome.next.inj ((exec_lw 0 rs imm s).symm.trans ht)
    obtain rfl := Host.Outcome.next.inj ((exec_lw rt rs imm s).symm.trans hu)
    rw [State.writeReg_zero]
    exact State.with_regs_advance_writeReg _ rt _

/-- Settles O30: the index is the pc modulo 8192, which divides the modulus of the advance. -/
theorem fetchFollowsThePcModulo8192 : Obligations.FetchFollowsThePcModulo8192 := by
  unfold Obligations.FetchFollowsThePcModulo8192
  intro s p q h
  have hindex : fetchIndex p = fetchIndex q := fetchIndex_eq ((toNat_fetchIndex q).trans h.symm)
  refine ⟨congrArg s.mem.wordAt hindex, ?_⟩
  rw [toNat_fetchIndex, BitVec.toNat_add]
  show (p.toNat + 1) % 65536 % 8192 = _
  omega

/-- Settles O31: the zero word is an add to register 0, whose result is discarded. -/
theorem zeroWordOnlyAdvances : Obligations.ZeroWordOnlyAdvances := by
  unfold Obligations.ZeroWordOnlyAdvances
  intro s hrun hword
  have hexec : exec s.fetchInstr s = .next s.advance := by
    rw [State.fetchInstr, hword, ← s.aluWrite_zero .add (s.readReg 0) (s.readReg 0)]
    rfl
  exact step_of_exec hrun hexec

/-- Settles O36: a step makes at most one cache access, and an access of the empty hierarchy does nothing. -/
theorem noCacheMeansNoEvents : Obligations.NoCacheMeansNoEvents := by
  unfold Obligations.NoCacheMeansNoEvents
  intro s t hcache h
  obtain ⟨u, heff, rfl⟩ := Effect.of_step h
  rw [State.forceZero_cache, State.forceZero_trace]
  obtain ⟨-, hc, ht⟩ | ⟨rt, rs, imm, st, -, hc, ht⟩ := heff.cache_trace
  · exact ⟨hc.trans hcache, ht⟩
  · rw [hc, ht, hcache]
    exact ⟨rfl, List.append_nil _⟩

end Sys2Proof.Machine
end

section
/-! The statements about what a launch builds (10_state.md R30 to R38). -/

namespace Sys2Proof.Machine

/-- Settles O46: a launch is a reset, which builds each level from its triple. -/
theorem launchSetsTheResetValues : Obligations.LaunchSetsTheResetValues := by
  unfold Obligations.LaunchSetsTheResetValues
  intro cfg image s h
  obtain ⟨-, rfl⟩ := State.launch_eq_some_iff.1 h
  refine ⟨rfl, fun r => Vector.getElem_replicate r.isLt, rfl, rfl, ?_, ?_, ?_⟩
  · rintro rfl
    rfl
  · rintro g rfl
    exact ⟨_, rfl, builtFrom_levelBuild .L1 g⟩
  · rintro g1 g2 rfl
    exact ⟨_, _, rfl, builtFrom_levelBuild .L1 g1, builtFrom_levelBuild .L2 g2⟩

/-- Settles O48: a launch exists under its two conditions, and a triple's four conditions say that its rows fill its
size. -/
theorem onlyValidConfigurationsLaunch : Obligations.OnlyValidConfigurationsLaunch := by
  unfold Obligations.OnlyValidConfigurationsLaunch
  refine ⟨fun cfg image => ?_, rfl, fun g1 g2 => Bool.and_eq_true_iff, Geometry.valid_iff_size_eq⟩
  simp [State.launch_eq_some_iff]

/-- Settles O50: a launch is a reset, whose rows are empty and whose trace records no access. -/
theorem launchedRowsAreInLruOrder : Obligations.LaunchedRowsAreInLruOrder := by
  unfold Obligations.LaunchedRowsAreInLruOrder
  intro cfg image s h
  obtain ⟨-, rfl⟩ := State.launch_eq_some_iff.1 h
  exact State.lruOrdered_resetWith cfg image

end Sys2Proof.Machine
end
